-- ==== Sys2Proof/Word.lean ====
section
/-! DEFINITION. Bytes, 16-bit lengths, and the zero extension of spec/00_scope.md rule R8. -/

namespace Sys2Proof

/-- A byte: an 8-bit unsigned value (R8). -/
abbrev Byte := BitVec 8

/-- The 16-bit payload length of rule R24. -/
abbrev Length := BitVec 16

/-- `zext_16(b)` of rule R8. -/
def zext16 (b : Byte) : Length := b.setWidth 16

end Sys2Proof
end

