-- ==== Sys2Proof/Config.lean ====
section
/-! DEFINITION. The parameters of spec/00_scope.md section 3, and the free values: what the spec leaves
open and this model leaves open too. A free value is an `opaque` constant with no body, so nothing can be
proved about what it is. -/

namespace Sys2Proof

/-- `START_SENTINEL` (R5, R81). -/
def Config.startSentinel : Byte := 0x1B

/-- `TOKEN_SENTINEL` (R5, R81). -/
def Config.tokenSentinel : Byte := 0x0E

/-- `ANSWER_CKSUM_ERROR`, the first payload byte of the error response (R5, R88). -/
def Config.answerCksumError : Byte := 0xB0

/-- `STATUS_CKSUM_ERROR`, the second payload byte of the error response (R5, R88). -/
def Config.statusCksumError : Byte := 0xC1

/-- `HEAD`: the bytes of `BUF` reserved before the payload region (R6). -/
def Config.head : Nat := 5

/-- `TAIL`: the bytes of `BUF` reserved after the payload region (R6). -/
def Config.tail : Nat := 1

/-- The smallest `CAPACITY` that construction accepts (R7, R251). -/
def Config.minCapacity : Nat := 8

/-- The largest `CAPACITY` that construction accepts (R7, R251). -/
def Config.maxCapacity : Nat := 65541

/-- The `CAPACITY` of the one instance that `State.reset` describes. DESIGN CHOICE, unsafe (log entry 2):
R7 leaves `CAPACITY` open; 16 is the capacity that spec/95_test_vectors.md takes where it names none. Every
other capacity is reached through RESET, and the statements quantify over it. -/
def Config.resetCapacity : Nat := 16

/-- The value of `CK` after the `n`-th construction: unspecified (R37, D26), a free value (log entry 4). -/
opaque Config.resetCk (n : Nat) : Byte

/-- The value of `SEQ` after the `n`-th construction: unspecified (R37), a free value (log entry 4). -/
opaque Config.resetSeq (n : Nat) : Byte

/-- The value of `LEN` after the `n`-th construction: unspecified (R37), a free value (log entry 4). -/
opaque Config.resetLen (n : Nat) : Length

/-- The value of `CNT` after the `n`-th construction: unspecified (R37), a free value of the 16 bits R25
gives the register (log entry 4). -/
opaque Config.resetCnt (n : Nat) : BitVec 16

/-- The value of `TXLEN` after the `n`-th construction: unspecified (R37), a free value of the 17 bits R28
gives the register (log entry 4). -/
opaque Config.resetTxlen (n : Nat) : BitVec 17

/-- Byte `i` of `BUF` after the `n`-th construction: unspecified (R37, R250), a free value (log entry 4). -/
opaque Config.resetBuf (n i : Nat) : Byte

/-- What the transport answers to read number `position` of an arbitrary endless sequence of answers (R180, D27),
`none` for `NoData`: a free value, another sequence for each number `stream` (log entry 13). -/
opaque Config.rxAnswer (stream position : Nat) : Option Byte

/-- `R` of the free Processor: the oracle `accept : PS x Region -> PS x Region x R` of R186, applied to its
opaque state, the payload length it is passed and the region it sees. The engine's use of it keeps only the
bound `R <= MAXP` of R184 (log entry 6). -/
opaque Config.processorLength (ps : Nat) (len : Length) (region : List Byte) : Nat

/-- The byte that the same oracle leaves at offset `i` of the region (R186; log entry 6). -/
opaque Config.processorByte (ps : Nat) (len : Length) (region : List Byte) (i : Nat) : Byte

/-- The state `PS` in which a call leaves the same oracle (R186; log entry 6). -/
opaque Config.processorState (ps : Nat) (len : Length) (region : List Byte) : Nat

end Sys2Proof
end

