-- ==== Sys2Proof/Syntax.lean ====
section
/-! DEFINITION. The operations of spec/opcode_table.json, one constructor a row, and the plain data their
operands are made of. -/

namespace Sys2Proof

/-- The parser state `ST`: exactly the seven states of R21. The eighth value of a 3-bit labelling does not
exist here (R90, U7). -/
inductive ParserState where
  /-- Waits for the START byte. -/
  | start
  /-- Waits for SEQ. -/
  | waitSeq
  /-- Waits for the high byte of LEN. -/
  | waitLenMsb
  /-- Waits for the low byte of LEN. -/
  | waitLenLsb
  /-- Waits for the TOKEN byte. -/
  | waitToken
  /-- Waits for a payload byte. -/
  | data
  /-- Waits for the checksum byte. -/
  | waitCksum
deriving DecidableEq, Repr

/-- What one `T.read_byte()` answers (R180). -/
inductive RxAnswer where
  /-- Nothing to read now; no error. -/
  | noData
  /-- The oldest unread byte. -/
  | byte (b : Byte)
deriving DecidableEq, Repr

/-- The transport's answers to reads after those that are listed. The sequence of answers may be finite or
infinite, and nothing constrains it (R180, D27). -/
inductive RxTail where
  /-- Nothing more ever comes: `NoData` for ever. -/
  | silent
  /-- These answers over and over, without an end. -/
  | repeats (first : RxAnswer) (others : List RxAnswer)
  /-- An arbitrary endless sequence of answers, from a position on: a free value. -/
  | free (stream position : Nat)
deriving DecidableEq, Repr

/-- What one `P.accept` does (R183, R186): the bytes it writes, each at an offset from the base of the payload
region, in order, the length `R` it returns, and the Processor's state after it. Bytes it does not write keep
what they hold (R184 (c)). -/
structure ProcAnswer where
  /-- Offsets from `BUF[HEAD]` and the bytes written there. -/
  writes : List Host.Cell
  /-- The returned response length `R`. -/
  length : Nat
  /-- The Processor's state `PS` after the call; `none` leaves it as it was. -/
  next : Option Nat
deriving DecidableEq, Repr

/-- What a case of the Processor looks at of the payload region. -/
inductive ProcView where
  /-- Nothing: the case holds of every call. -/
  | anything
  /-- The payload alone, `BUF[HEAD .. HEAD+LEN)`: the simpler oracle of R187. -/
  | payload (bytes : List Byte)
  /-- The payload length and the whole region `BUF[HEAD .. HEAD+MAXP)`, stale bytes included (R186). -/
  | region (len : Length) (bytes : List Byte)
deriving DecidableEq, Repr

/-- One case of the Processor as a function `accept : PS x Region -> PS x Region x R` (R186): in this state
(`none`: in any) and on this sight of the region, this answer. -/
structure ProcCase where
  /-- The state `PS` the case is for. -/
  state : Option Nat
  /-- What the region must hold. -/
  view : ProcView
  /-- What the Processor then does. -/
  answer : ProcAnswer
deriving DecidableEq, Repr

/-- The Transport and the Processor that a construction binds (R189): the answers the one will give, and the
cases of the other. -/
structure Binding where
  /-- The transport's answers to reads, next first. -/
  rx : List RxAnswer
  /-- The transport's answers to every read after those (D27). -/
  rxAfter : RxTail
  /-- The transport's acceptance limits for writes, next first (R95). -/
  wr : List Nat
  /-- The limit of every write after those; `none` accepts all (R95). -/
  wrAfter : Option Nat
  /-- The Processor's cases, the first that holds answers. -/
  proc : List ProcCase
  /-- The Processor's own opaque state (R186). -/
  procState : Nat
deriving DecidableEq, Repr

/-- One operation of the engine: a row of spec/opcode_table.json. -/
inductive Instr where
  /-- P.SYNC (R111); its byte is `START_SENTINEL`. -/
  | pSync
  /-- P.SKIP (R112). -/
  | pSkip (b : Byte)
  /-- P.SEQ (R113). -/
  | pSeq (b : Byte)
  /-- P.LENH (R114). -/
  | pLenh (b : Byte)
  /-- P.LENL (R115). -/
  | pLenl (b : Byte)
  /-- P.LENL.DROP (R116). -/
  | pLenlDrop (b : Byte)
  /-- P.TOKEN (R117); its byte is `TOKEN_SENTINEL`. -/
  | pToken
  /-- P.TOKEN.BAD (R118). -/
  | pTokenBad (b : Byte)
  /-- P.DATA (R119). -/
  | pData (b : Byte)
  /-- P.DATA.LAST (R120). -/
  | pDataLast (b : Byte)
  /-- P.CKSUM.OK (R121). -/
  | pCksumOk (b : Byte)
  /-- P.CKSUM.ERR (R122). -/
  | pCksumErr (b : Byte)
  /-- D.ERR (R143). -/
  | dErr
  /-- D.CALL (R144). -/
  | dCall
  /-- D.RESP (R145): the Processor returned `r > 0`. -/
  | dResp (r : Nat)
  /-- D.NONE (R146). -/
  | dNone
  /-- D.ARM (R147): `arm_response(len)`. -/
  | dArm (len : Nat)
  /-- S.RX.NODATA (R162). -/
  | sRxNodata
  /-- S.RX.BYTE (R161): the read answered `Byte(b)`. -/
  | sRxByte (b : Byte)
  /-- S.TX.STALL (R165). -/
  | sTxStall
  /-- S.TX.PART (R163): the write accepted `n` bytes, more than none and fewer than offered. -/
  | sTxPart (n : Nat)
  /-- S.TX.DONE (R164). -/
  | sTxDone
  /-- RESET (R250): construction with this `CAPACITY`; `none` binds the transport and the Processor of the
  instance it replaces, `some` binds others (R189, R252). -/
  | reset (capacity : Nat) (binding : Option Binding)
  /-- FRAME.REQ (R80, R87): the peer puts this request frame into the receive stream. -/
  | frameReq (seq : Byte) (payload : List Byte)
  /-- FRAME.RSP (R87): this response frame goes whole into the transmit stream. -/
  | frameRsp (seq : Byte) (payload : List Byte)
  /-- FRAME.ERR (R88): `ERRFRAME(seq)` goes whole into the transmit stream. -/
  | frameErr (seq : Byte)
deriving DecidableEq, Repr

end Sys2Proof
end

