-- ==== Sys2Proof/WellFormed.lean ====
section
/-! DEFINITION. Which terms of `Instr` are operations of the table: the conditions a row puts on its operands
that do not depend on the state. -/

namespace Sys2Proof

/-- Why a term is no operation of the table. -/
inductive IllFormed where
  /-- P.SKIP with `START_SENTINEL`: that byte selects P.SYNC (R112). -/
  | skipOfStart
  /-- P.TOKEN.BAD with `TOKEN_SENTINEL`: that byte selects P.TOKEN (R118). -/
  | badTokenOfToken
  /-- D.RESP with `R = 0`, or an `R` above every `MAXP` (R145). -/
  | responseLength
  /-- D.ARM with a length outside `1 .. 65535` (R147, R148). -/
  | armLength
  /-- S.TX.PART with a count that no short write has (R163). -/
  | partialCount
  /-- RESET with a `CAPACITY` outside the bounds of R251. -/
  | capacity
  /-- A frame whose payload length does not fit the 16-bit LEN (R83, R84). -/
  | frameLength
  /-- A response frame of length zero: never sent (R86). -/
  | emptyResponse
  /-- A response frame whose payload is that of R88: its bits are those of FRAME.ERR, the more specific row, and
  are written so (DESIGN CHOICE, log entry 9). -/
  | errorAsResponse
deriving DecidableEq, Repr

/-- The payload of the checksum-error response (R88). -/
def errorPayload : List Byte := [Config.answerCksumError, Config.statusCksumError]

/-- A `CAPACITY` that construction accepts (R7, R251). -/
def capacityValid (c : Nat) : Bool :=
  decide (Config.minCapacity ≤ c) && decide (c ≤ Config.maxCapacity)

/-- The first check that the term fails, by name. -/
def Instr.check : Instr → Option IllFormed
  | .pSync => none
  | .pSkip b => if b = Config.startSentinel then some .skipOfStart else none
  | .pSeq _ => none
  | .pLenh _ => none
  | .pLenl _ => none
  | .pLenlDrop _ => none
  | .pToken => none
  | .pTokenBad b => if b = Config.tokenSentinel then some .badTokenOfToken else none
  | .pData _ => none
  | .pDataLast _ => none
  | .pCksumOk _ => none
  | .pCksumErr _ => none
  | .dErr => none
  | .dCall => none
  | .dResp r => if 0 < r ∧ r < 65536 then none else some .responseLength
  | .dNone => none
  | .dArm len => if 0 < len ∧ len < 65536 then none else some .armLength
  | .sRxNodata => none
  | .sRxByte _ => none
  | .sTxStall => none
  | .sTxPart n => if 0 < n ∧ n < Config.maxCapacity then none else some .partialCount
  | .sTxDone => none
  | .reset c _ => if capacityValid c then none else some .capacity
  | .frameReq _ p => if p.length < 65536 then none else some .frameLength
  | .frameRsp _ p =>
    if p.length = 0 then some .emptyResponse
    else if 65536 ≤ p.length then some .frameLength
    else if p = errorPayload then some .errorAsResponse
    else none
  | .frameErr _ => none

/-- The term is an operation of the table. -/
def Instr.wellFormed (i : Instr) : Bool := i.check.isNone

end Sys2Proof
end

