-- ==== Sys2Proof/Machine/Operands.lean ====
section
/-! DEFINITION. The operand forms: assembling and splitting the 16-bit length (R83, R84), the XOR checksum
(R141) and the bytes of a frame (R80). -/

namespace Sys2Proof.Machine

/-- `xor_all(s)` (R141): the XOR of all bytes, 0 for the empty sequence. -/
def xorAll : List Byte → Byte
  | [] => 0
  | b :: rest => b ^^^ xorAll rest

/-- `LEN <- zext_16(b) << 8` (R83). -/
def lengthHigh (b : Byte) : Length := zext16 b <<< 8

/-- `LEN | zext_16(b)` (R83). -/
def lengthLow (len : Length) (b : Byte) : Length := len ||| zext16 b

/-- `len[15:8]`, the source's `len>>8` (R84). -/
def lengthHi (len : Nat) : Byte := BitVec.ofNat 8 (len / 256)

/-- `len[7:0]`, the source's `len&0xFF` (R84). -/
def lengthLo (len : Nat) : Byte := BitVec.ofNat 8 (len % 256)

/-- The five header bytes of a frame: START, SEQ, LEN_HI, LEN_LO, TOKEN (R80). -/
def frameHeader (seq : Byte) (len : Nat) : List Byte :=
  [Config.startSentinel, seq, lengthHi len, lengthLo len, Config.tokenSentinel]

/-- The bytes of a frame that its checksum covers (R85). -/
def frameBody (seq : Byte) (payload : List Byte) : List Byte :=
  frameHeader seq payload.length ++ payload

/-- `FRAME(seq; payload)` (R80, R95): all bytes of the frame, the checksum last. -/
def frameBytes (seq : Byte) (payload : List Byte) : List Byte :=
  frameBody seq payload ++ [xorAll (frameBody seq payload)]

/-- `ERRFRAME(seq)` (R88): `1B ss 00 02 0E B0 C1 cc`. -/
def errorFrame (seq : Byte) : List Byte := frameBytes seq errorPayload

/-- The number of a parser state (R90). -/
def stateNumber : ParserState → Nat
  | .start => 0
  | .waitSeq => 1
  | .waitLenMsb => 2
  | .waitLenLsb => 3
  | .waitToken => 4
  | .data => 5
  | .waitCksum => 6

/-- `n` bytes of a number, the least significant first. -/
def natBytes : Nat → Nat → List Byte
  | 0, _ => []
  | n + 1, v => BitVec.ofNat 8 (v % 256) :: natBytes n (v / 256)

/-- The number whose bytes these are, the least significant first. -/
def bytesNat : List Byte → Nat
  | [] => 0
  | b :: rest => b.toNat + 256 * bytesNat rest

end Sys2Proof.Machine
end

