-- ==== Sys2Proof/Machine/State.lean ====
section
/-! DEFINITION. The state of one Framer instance and of the environment agents it meets, as plain data; the
state after reset; why a step can stop.

The eight pieces of state of R20 come first. `CAPACITY` is the parameter an instance was constructed with (R7,
R189). The rest is the model's own: the control position of a `service` call, the answers of Transport and
Processor (R35: not the Framer's state), whose turn it is (R11), and what an observer has seen (R12). -/

namespace Sys2Proof.Machine

/-- The frame buffer's contents: address and byte pairs in canonical form, see `Memory.wf`. -/
abbrev Memory := List Host.Cell

/-- What an observer sees of a run (R12), one event each, in order. -/
inductive Event where
  /-- A byte consumed from the receive stream. -/
  | consumed (b : Byte)
  /-- A Processor invocation: its payload, the length it returned, the response bytes. -/
  | called (payload : List Byte) (r : Nat) (response : List Byte)
  /-- Bytes the transport accepted, in order. -/
  | accepted (bytes : List Byte)
deriving DecidableEq, Repr

/-- Whose turn it is, when it is not simply the engine's (R11, R188). -/
inductive Turn where
  /-- The engine performs one micro-step: the driver calls `service`, or a call goes on. -/
  | framer
  /-- The peer puts a request frame into the receive stream (R87). -/
  | peerSends (seq : Byte) (payload : List Byte)
  /-- The driver constructs an instance in place of this one (R189, R252). -/
  | construct (capacity : Nat) (binding : Option Binding)
deriving DecidableEq, Repr

/-- The two operating modes of R235. -/
inductive Mode where
  /-- `TXC = IDLE`. -/
  | receive
  /-- `TXC != IDLE`. -/
  | transmit
deriving DecidableEq, Repr

/-- Why the machine stops with a fault. Each is outside the engine's contract; none is a class of R220. -/
inductive Fault where
  /-- An access to `BUF` at an offset outside `0 .. CAPACITY-1` (R56, R59). Raised by P.DATA, P.DATA.LAST, the
  dispatch operations and the transmit micro-steps, only in states that R38 excludes. Safe. -/
  | bufOffset
  /-- The Processor returned `R > MAXP` (U3). Raised by P.CKSUM.OK and D.CALL as the Processor returns. Safe. -/
  | processorLength
  /-- The Processor wrote outside the payload region (U3). Raised as `processorLength` is. Safe. -/
  | processorRegion
deriving DecidableEq, Repr

/-- Why an operation is not performed. -/
inductive Refusal where
  /-- The instruction has no meaning in this model. Raised by no arm of `exec`. Safe. -/
  | notModelled (mnemonic : String)
  /-- The selector of R91, R92 does not pick this operation in this state, so it does not exist there. Raised by
  the parser, dispatch, transmit and wire operations; a step never asks for it. Safe. -/
  | notSelected
  /-- A parser or dispatch operation, or `arm_response`, while a response is pending (U5, R148). Raised by the
  parser and dispatch operations; a step never asks for it. Safe. -/
  | transmitting
  /-- `arm_response(len)` with `len` outside `1 .. MAXP` (R148, U3). Raised by D.ARM and D.RESP. Safe. -/
  | armLength
  /-- Construction with an invalid `CAPACITY`: no instance (R251, U6). Raised by RESET. Safe. -/
  | invalidCapacity
  /-- Construction inside a `service` call (R252). Raised by RESET. Safe. -/
  | resetDuringService
  /-- A frame longer than the 16-bit LEN can say: no such frame exists (R80). Raised by FRAME.REQ. Safe. -/
  | frameLength
deriving DecidableEq, Repr

/-- The machine's state. -/
structure State where
  /-- `CAPACITY`, the parameter of the construction; only RESET writes it (R7, R20). -/
  capacity : Nat
  /-- `ST`, the parser state (R21). -/
  st : ParserState
  /-- `CK`, the checksum accumulator (R22). -/
  ck : Byte
  /-- `SEQ` (R23). -/
  seq : Byte
  /-- `LEN` (R24). -/
  len : Length
  /-- `CNT`, the payload count (R25). -/
  cnt : Nat
  /-- `BUF`, the frame buffer (R26). -/
  buf : Memory
  /-- `TXC`, the transmit cursor; `none` is `IDLE` (R27). -/
  txc : Option Nat
  /-- `TXLEN`, the total length of the pending frame (R28). -/
  txlen : Nat
  /-- A `service` call is in progress: set by a micro-step that continues the loop, cleared by one that
  returns (R160). -/
  serving : Bool
  /-- The transport's answers to reads, next first (R180). -/
  rx : List RxAnswer
  /-- Its answers to every read after those: a finite or an infinite sequence (D27), so that a peer that sends
  without an end is one (R168, R272). -/
  rxAfter : RxTail
  /-- The transport's acceptance limits, next first (R181, R95). -/
  wr : List Nat
  /-- The limit of every write after those: `none` accepts all that is offered (R95), `some 0` is a transport that
  stalls for ever (R172, R236). -/
  wrAfter : Option Nat
  /-- The Processor, fixed for the instance (R192), as cases of the oracle of R186: the first that holds answers a
  call, the free oracle where none does. -/
  proc : List ProcCase
  /-- The Processor's opaque state `PS`, read and rewritten by each call (R186). -/
  procState : Nat
  /-- Who moves next; after the last entry the engine does, for ever (R11, R188). -/
  schedule : List Turn
  /-- How many constructions have taken the place of the first instance: the argument of the free values that
  R37 leaves unspecified. -/
  constructions : Nat
  /-- What an observer has seen, oldest first (R12). -/
  trace : List Event
deriving DecidableEq, Repr

/-- The first instance right after its construction (R37): `ST = START`, `TXC = IDLE`. The spec gives no other
value: the capacity (log entry 2), the zeros and the unwritten buffer (log entry 3) are DESIGN CHOICE. No
transport operation and no Processor call has happened (R250); nobody has sent anything (log entry 5). -/
def State.reset : State where
  capacity := Config.resetCapacity
  st := .start
  ck := 0
  seq := 0
  len := 0
  cnt := 0
  buf := []
  txc := none
  txlen := 0
  serving := false
  rx := []
  rxAfter := .silent
  wr := []
  wrAfter := none
  proc := []
  procState := 0
  schedule := []
  constructions := 0
  trace := []

end Sys2Proof.Machine
end

