-- ==== Sys2Proof/Machine/Ops.lean ====
section
/-! DEFINITION. The named operations over `BUF` and the registers, the Processor call, the building of a
response, and the handling of an error with its return. -/

namespace Sys2Proof.Machine

/-- The outcome of an operation. -/
abbrev Result := Host.Outcome State Fault Refusal

/-- What a byte of `BUF` that is not listed reads as. DESIGN CHOICE, unsafe (log entry 3): R37 leaves the
contents after construction unspecified. -/
def Memory.unlisted : Byte := 0

/-- `MemRead(a, 1)` (R56). -/
def Memory.read : Memory → Nat → Byte
  | [], _ => Memory.unlisted
  | (x, v) :: rest, a => if x = a then v else Memory.read rest a

/-- A cell in front of a memory, unless it holds what an unlisted address reads as. -/
def Memory.cons (a : Nat) (v : Byte) (m : Memory) : Memory :=
  if v = Memory.unlisted then m else (a, v) :: m

/-- `MemWrite(a, 1, v)` (R56); keeps the canonical form. -/
def Memory.write : Memory → Nat → Byte → Memory
  | [], a, v => Memory.cons a v []
  | (x, w) :: rest, a, v =>
    if a < x then Memory.cons a v ((x, w) :: rest)
    else if a = x then Memory.cons a v rest
    else (x, w) :: Memory.write rest a v

/-- All cells lie above `a`, addresses rise strictly, and no cell holds what an unlisted address reads as. -/
def Memory.risingFrom : Option Nat → Memory → Bool
  | _, [] => true
  | lo, (x, v) :: rest =>
    (match lo with
      | none => true
      | some a => decide (a < x)) && decide (v ≠ Memory.unlisted) && Memory.risingFrom (some x) rest

/-- The canonical form: equal contents are equal lists. -/
def Memory.wf (m : Memory) : Bool := Memory.risingFrom none m

/-- `BUF[a .. a+n)` (R8). -/
def Memory.slice (m : Memory) : Nat → Nat → List Byte
  | _, 0 => []
  | a, n + 1 => Memory.read m a :: Memory.slice m (a + 1) n

/-- Consecutive bytes written from `a` upward. -/
def Memory.writeBytes (m : Memory) : Nat → List Byte → Memory
  | _, [] => m
  | a, v :: rest => Memory.writeBytes (Memory.write m a v) (a + 1) rest

/-- Single bytes written at their offsets from `base`, in order. -/
def Memory.writeCells (m : Memory) (base : Nat) : List Host.Cell → Memory
  | [] => m
  | c :: rest => Memory.writeCells (Memory.write m (base + c.1) c.2) base rest

/-- A buffer of `n` bytes whose byte `i` is the unspecified byte `i` of construction `k` (R37, R250). -/
def Memory.unspecified (k : Nat) : Nat → Memory
  | 0 => []
  | n + 1 => Memory.write (Memory.unspecified k n) n (Config.resetBuf k n)

/-- `MAXP = CAPACITY - HEAD - TAIL` (R7). -/
def State.maxp (s : State) : Nat := s.capacity - Config.head - Config.tail

/-- The mode is `TXC`'s (R235). -/
def State.mode (s : State) : Mode := if s.txc.isSome then .transmit else .receive

/-- The payload region `BUF[HEAD .. HEAD+MAXP)` (R51). -/
def State.region (s : State) : List Byte := Memory.slice s.buf Config.head s.maxp

/-- The request payload `BUF[HEAD .. HEAD+LEN)` (R144). -/
def State.payload (s : State) : List Byte := Memory.slice s.buf Config.head s.len.toNat

/-- The bytes a write offers from cursor `k`: `BUF[TXC .. TXLEN)` (R171). -/
def State.offered (s : State) (k : Nat) : List Byte := Memory.slice s.buf k (s.txlen - k)

/-- What an observer sees is noted (R12). -/
def State.observe (s : State) (e : Event) : State := { s with trace := s.trace ++ [e] }

/-- `BUF[HEAD + CNT] <- b; CNT <- CNT + 1`, the store of R119 and R120. -/
def State.storePayload (s : State) (b : Byte) : State :=
  { s with buf := Memory.write s.buf (Config.head + s.cnt) b, cnt := s.cnt + 1 }

/-- `arm_response(len)` (R147): header, checksum recomputed from the buffer, cursor at 0. `CK` is the running
checksum and keeps the checksum byte (R149). -/
def State.arm (s : State) (len : Nat) : State :=
  let framed := Memory.writeBytes s.buf 0 (frameHeader s.seq len)
  let c := xorAll (Memory.slice framed 0 (Config.head + len))
  { s with
    buf := Memory.write framed (Config.head + len) c
    ck := c
    txlen := Config.head + len + Config.tail
    txc := some 0 }

/-- The payload of the error response at `BUF[HEAD]`, then `arm_response(2)` (R143). -/
def State.errorResponse (s : State) : State :=
  { s with buf := Memory.writeBytes s.buf Config.head errorPayload }.arm 2

/-- The classes of the error taxonomy (R220). -/
inductive ErrorClass where
  /-- E_CKSUM (R221). -/
  | checksum
  /-- E_LEN_ZERO (R222). -/
  | lengthZero
  /-- E_LEN_OVER (R223). -/
  | lengthOver
  /-- E_TOKEN (R224). -/
  | token
deriving DecidableEq, Repr

/-- Handling an error: R231's "entry". Control goes to state START; nothing is saved. A checksum error also
builds the error response, which changes the mode to TRANSMIT; the other classes drop the frame silently. -/
def State.takeError (s : State) : ErrorClass → State
  | .checksum => { s with st := .start }.errorResponse
  | .lengthZero => { s with st := .start }
  | .lengthOver => { s with st := .start }
  | .token => { s with st := .start }

/-- The return to receive mode when a response has drained (R164, R233): nothing was saved, nothing is
restored. -/
def State.returnToReceive (s : State) : State := { s with txc := none }

/-- The answer of the free Processor, a function of `PS` and the region: every byte of the region, the length
(kept within `0 .. MAXP`, R184) and the new `PS` are free values (R186; log entry 6). -/
def State.freeAnswer (s : State) : ProcAnswer where
  writes := (List.range s.maxp).map fun i => (i, Config.processorByte s.procState s.len s.region i)
  length := Config.processorLength s.procState s.len s.region % (s.maxp + 1)
  next := some (Config.processorState s.procState s.len s.region)

/-- The region shows what a case of the Processor looks at. -/
def State.shows (s : State) : ProcView → Bool
  | .anything => true
  | .payload p => decide (s.payload = p)
  | .region len bytes => decide (s.len = len) && decide (s.region = bytes)

/-- A case of the Processor holds of a call made in this state. -/
def State.inCase (s : State) (c : ProcCase) : Bool :=
  (match c.state with
    | none => true
    | some ps => decide (s.procState = ps)) && s.shows c.view

/-- `accept(PS, Region)` (R186): the first case that holds, or else the free Processor. -/
def State.processorAnswer (s : State) : ProcAnswer :=
  match s.proc.find? s.inCase with
  | some c => c.answer
  | none => s.freeAnswer

/-- An answer within the contract of R184: `R <= MAXP`, and only the payload region written. -/
def answerFits (maxp : Nat) (a : ProcAnswer) : Bool :=
  decide (a.length ≤ maxp) && a.writes.all fun c => decide (c.1 < maxp)

/-- The state when the Processor has returned `a`: its bytes in the payload region, its own state as it left it
(R186), and the invocation observed (R12, R144). -/
def State.afterCall (s : State) (a : ProcAnswer) : State :=
  let buf := Memory.writeCells s.buf Config.head a.writes
  { s with
    buf := buf
    procState := a.next.getD s.procState
    trace := s.trace ++ [.called s.payload a.length (Memory.slice buf Config.head a.length)] }

/-- D.RESP or D.NONE on the returned length (R145, R146). -/
def State.respond (s : State) (r : Nat) : State := if 0 < r then s.arm r else s

/-- The call completed with the answer `a`, and D.RESP or D.NONE after it (R144). -/
def State.completeCall (s : State) (a : ProcAnswer) : State := (s.afterCall a).respond a.length

/-- `dispatch_ok` (R144): the Processor answers and the call is completed. An answer outside the contract is a
fault at the moment the Processor returns (U3); the free Processor keeps it. -/
def callProcessor (s : State) : Result :=
  if s.maxp < s.len.toNat then .fault .bufOffset
  else if s.maxp < s.processorAnswer.length then .fault .processorLength
  else if answerFits s.maxp s.processorAnswer then .next (s.completeCall s.processorAnswer)
  else .fault .processorRegion

/-- A parser or dispatch operation: it exists only in receive mode (R110, U5) and where its selector picks it
(R91, R92). -/
def ifSelected (s : State) (selected : Bool) (r : Result) : Result :=
  if s.txc.isSome then .refused .transmitting
  else if selected then r
  else .refused .notSelected

/-- An access to `BUF` at offset `a`: outside the buffer there is nothing (R56). -/
def ifInBuffer (s : State) (a : Nat) (r : Result) : Result :=
  if a < s.capacity then r else .fault .bufOffset

end Sys2Proof.Machine
end

