-- ==== Sys2Proof/Machine/Construction.lean ====
section
/-! DEFINITION. RESET: the construction of an instance (spec/70_reset_and_hazards.md). -/

namespace Sys2Proof.Machine

/-- The agents that a construction binds: those of the instance it replaces, or others (R189). -/
def State.bind (s : State) : Option Binding → State
  | none => s
  | some b => 
    { s with
      rx := b.rx, rxAfter := b.rxAfter, wr := b.wr, wrAfter := b.wrAfter, proc := b.proc, procState := b.procState }

/-- A new instance of capacity `c` in place of this one (R250, R252): `ST = START`, `TXC = IDLE`, every other
register and every byte of `BUF` a free value (R37, D26; log entry 4). No transport operation is performed and
the Processor is not called. -/
def State.construct (s : State) (c : Nat) : State :=
  { s with
    capacity := c
    st := .start
    ck := Config.resetCk (s.constructions + 1)
    seq := Config.resetSeq (s.constructions + 1)
    len := Config.resetLen (s.constructions + 1)
    cnt := (Config.resetCnt (s.constructions + 1)).toNat
    buf := Memory.unspecified (s.constructions + 1) c
    txc := none
    txlen := (Config.resetTxlen (s.constructions + 1)).toNat
    constructions := s.constructions + 1 }

/-- RESET (R250): refused with an invalid `CAPACITY` (R251) and inside a `service` call (R252). -/
def execReset (capacity : Nat) (binding : Option Binding) (s : State) : Result :=
  if !capacityValid capacity then .refused .invalidCapacity
  else if s.serving then .refused .resetDuringService
  else .next ((s.bind binding).construct capacity)

end Sys2Proof.Machine
end

