-- ==== Sys2Proof/Decode.lean ====
section
/-! DEFINITION. The decoder and the encoder of operation words.

The spec has selector keys, no instruction words (R90 to R92, R97). A parser word is the key of R91 in two
bytes: the input byte, then the state number in bits 2..0. Where two rows share a key (P.LENL and P.LENL.DROP,
P.DATA and P.DATA.LAST, P.CKSUM.OK and P.CKSUM.ERR) bit 3 of the second byte holds the outcome of the
data-dependent guard: 0 the row listed first, 1 the other (DESIGN CHOICE, log entry 8). A dispatch word is the
key `{z, p}` of R92 in bits 1..0, bit 2 set once the Processor has returned, bit 3 set for D.ARM, then the
length in two bytes. A driver word is the key `{t, a}` of R92, then the operand in three bytes. A frame is its
own bytes (R80). -/

namespace Sys2Proof

/-- Which table of selectors a word belongs to: the `format` of R97, with `W` split by the stream the frame
stands in, because no bit of a frame says whether it is a request or a response (R87). -/
inductive Format where
  /-- Format `P`. -/
  | parser
  /-- Format `D`. -/
  | dispatch
  /-- Format `S`. -/
  | driver
  /-- Format `R`. -/
  | reset
  /-- Format `W`, a frame of the receive stream. -/
  | rxFrame
  /-- Format `W`, a frame of the transmit stream. -/
  | txFrame
deriving DecidableEq, Repr

/-- Why a word is no operation. -/
inductive DecodeError where
  /-- The word has another number of bytes than its format. -/
  | wordLength
  /-- A parser key with bits above the guard bit. -/
  | parserKeyBits
  /-- A parser key with the state number 7 (R90, U7). -/
  | reservedState
  /-- The guard bit on a key that one row alone has. -/
  | guardOfUnguarded
  /-- A dispatch key that no row has. -/
  | dispatchKey
  /-- A driver key that no row has: `0 1-`, `1 11`, or a bit above the three of R92. -/
  | driverKey
  /-- Operand bits of a row that has no such operand. -/
  | operandBits
  /-- An operand value outside the row's range. -/
  | operandRange
  /-- A frame that does not begin with `START_SENTINEL`. -/
  | frameStart
  /-- A frame without `TOKEN_SENTINEL` at offset 4. -/
  | frameToken
  /-- A frame whose LEN is not the number of its payload bytes. -/
  | frameLength
  /-- A frame whose CKSUM is not the XOR of the bytes before it. -/
  | frameChecksum
deriving DecidableEq, Repr

/-- The parser row of a key: input byte `b`, state number and guard bit in `k` (R91). -/
def decodeParser (b k : Byte) : Except DecodeError Instr :=
  match k.toNat with
  | 0 => .ok (if b = Config.startSentinel then .pSync else .pSkip b)
  | 1 => .ok (.pSeq b)
  | 2 => .ok (.pLenh b)
  | 3 => .ok (.pLenl b)
  | 4 => .ok (if b = Config.tokenSentinel then .pToken else .pTokenBad b)
  | 5 => .ok (.pData b)
  | 6 => .ok (.pCksumOk b)
  | 7 => .error .reservedState
  | 11 => .ok (.pLenlDrop b)
  | 13 => .ok (.pDataLast b)
  | 14 => .ok (.pCksumErr b)
  | n => if n < 16 then .error .guardOfUnguarded else .error .parserKeyBits

/-- An operation without operands: its operand bytes are zero. -/
def noOperand (operand : Nat) (i : Instr) : Except DecodeError Instr :=
  if operand = 0 then .ok i else .error .operandBits

/-- The dispatch row of a key (R92) and a length operand. -/
def decodeDispatch (k : Byte) (operand : Nat) : Except DecodeError Instr :=
  match k.toNat with
  | 0 => noOperand operand .dErr
  | 1 => noOperand operand .dErr
  | 2 => noOperand operand .dCall
  | 3 => noOperand operand .dCall
  | 6 => noOperand operand .dNone
  | 7 => if operand = 0 then .error .operandRange else .ok (.dResp operand)
  | 8 => if operand = 0 then .error .operandRange else .ok (.dArm operand)
  | _ => .error .dispatchKey

/-- The driver row of a key (R92): the byte of S.RX.BYTE, or the count of S.TX.PART less one, as operand. -/
def decodeDriver (k : Byte) (operand : Nat) : Except DecodeError Instr :=
  match k.toNat with
  | 0 => noOperand operand .sRxNodata
  | 1 => if operand < 256 then .ok (.sRxByte (BitVec.ofNat 8 operand)) else .error .operandBits
  | 4 => noOperand operand .sTxStall
  | 5 => if operand + 1 < Config.maxCapacity then .ok (.sTxPart (operand + 1)) else .error .operandRange
  | 6 => noOperand operand .sTxDone
  | _ => .error .driverKey

/-- SEQ and payload of a frame (R80), every check of R141 made. -/
def decodeFrame : List Byte → Except DecodeError (Byte × List Byte)
  | s :: seq :: hi :: lo :: tok :: rest =>
    if s ≠ Config.startSentinel then .error .frameStart
    else if tok ≠ Config.tokenSentinel then .error .frameToken
    else if rest.length ≠ 256 * hi.toNat + lo.toNat + 1 then .error .frameLength
    else if rest.getLast? = some (Machine.xorAll (s :: seq :: hi :: lo :: tok :: rest.dropLast)) then
      .ok (seq, rest.dropLast)
    else .error .frameChecksum
  | _ => .error .wordLength

/-- The wire row of a frame of the transmit stream: the error response of R88 where its bits are those. -/
def responseRow (seq : Byte) (payload : List Byte) : Except DecodeError Instr :=
  if payload.length = 0 then .error .frameLength
  else if payload = errorPayload then .ok (.frameErr seq)
  else .ok (.frameRsp seq payload)

/-- The operation a word stands for. Total: any bytes give an operation or a named rejection. -/
def decode (f : Format) (w : List Byte) : Except DecodeError Instr :=
  match f with
  | .parser =>
    match w with
    | [b, k] => decodeParser b k
    | _ => .error .wordLength
  | .dispatch =>
    match w with
    | [k, x, y] => decodeDispatch k (Machine.bytesNat [x, y])
    | _ => .error .wordLength
  | .driver =>
    match w with
    | [k, x, y, z] => decodeDriver k (Machine.bytesNat [x, y, z])
    | _ => .error .wordLength
  | .reset =>
    match w with
    | [x, y, z] =>
      if capacityValid (Machine.bytesNat [x, y, z]) then .ok (.reset (Machine.bytesNat [x, y, z]) none)
      else .error .operandRange
    | _ => .error .wordLength
  | .rxFrame => (decodeFrame w).map fun r => .frameReq r.1 r.2
  | .txFrame => (decodeFrame w).bind fun r => responseRow r.1 r.2

/-- The parser word of a state number, a guard bit and an input byte. -/
def parserWord (st : ParserState) (guardBit : Bool) (b : Byte) : List Byte :=
  [b, BitVec.ofNat 8 (Machine.stateNumber st + if guardBit then 8 else 0)]

/-- The word of an operation and its format; `none` for a construction that binds another transport and
Processor, which are capabilities and have no bits (R189, R192). -/
def encode : Instr → Option (Format × List Byte)
  | .pSync => some (.parser, parserWord .start false Config.startSentinel)
  | .pSkip b => some (.parser, parserWord .start false b)
  | .pSeq b => some (.parser, parserWord .waitSeq false b)
  | .pLenh b => some (.parser, parserWord .waitLenMsb false b)
  | .pLenl b => some (.parser, parserWord .waitLenLsb false b)
  | .pLenlDrop b => some (.parser, parserWord .waitLenLsb true b)
  | .pToken => some (.parser, parserWord .waitToken false Config.tokenSentinel)
  | .pTokenBad b => some (.parser, parserWord .waitToken false b)
  | .pData b => some (.parser, parserWord .data false b)
  | .pDataLast b => some (.parser, parserWord .data true b)
  | .pCksumOk b => some (.parser, parserWord .waitCksum false b)
  | .pCksumErr b => some (.parser, parserWord .waitCksum true b)
  | .dErr => some (.dispatch, 0 :: Machine.natBytes 2 0)
  | .dCall => some (.dispatch, 2 :: Machine.natBytes 2 0)
  | .dResp r => some (.dispatch, 7 :: Machine.natBytes 2 r)
  | .dNone => some (.dispatch, 6 :: Machine.natBytes 2 0)
  | .dArm len => some (.dispatch, 8 :: Machine.natBytes 2 len)
  | .sRxNodata => some (.driver, 0 :: Machine.natBytes 3 0)
  | .sRxByte b => some (.driver, 1 :: Machine.natBytes 3 b.toNat)
  | .sTxStall => some (.driver, 4 :: Machine.natBytes 3 0)
  | .sTxPart n => some (.driver, 5 :: Machine.natBytes 3 (n - 1))
  | .sTxDone => some (.driver, 6 :: Machine.natBytes 3 0)
  | .reset c none => some (.reset, Machine.natBytes 3 c)
  | .reset _ (some _) => none
  | .frameReq seq p => some (.rxFrame, Machine.frameBytes seq p)
  | .frameRsp seq p => some (.txFrame, Machine.frameBytes seq p)
  | .frameErr seq => some (.txFrame, Machine.errorFrame seq)

/-- The operation, if the decoder gives one. -/
def decoded (r : Except DecodeError Instr) : Option Instr :=
  match r with
  | .ok i => some i
  | .error _ => none

/-- The operation a word of the opcode table stands for, read state by state as the table numbers its bits: up
to 8 bits a driver key, up to 16 bits a parser key, more a frame, whose first byte is bits 7..0 (the error
response where it is one, else a request). A row whose word another row has too is answered by the row the
table lists first. -/
def decodeTableWord (nbits w : Nat) : Option Instr :=
  if nbits ≤ 8 then decoded (decode .driver (Machine.natBytes 4 w))
  else if nbits ≤ 16 then decoded (decode .parser (Machine.natBytes 2 w))
  else
    match decoded (decode .txFrame (Machine.natBytes ((nbits + 7) / 8) w)) with
    | some (.frameErr seq) => some (.frameErr seq)
    | _ => decoded (decode .rxFrame (Machine.natBytes ((nbits + 7) / 8) w))

end Sys2Proof
end

