-- ==== Sys2Proof/Machine/Flags.lean ====
section
/-! DEFINITION. The predicates of R29. The hardware stores no flag: these are computed from the state and the
input byte. -/

namespace Sys2Proof.Machine

/-- `TRANSMITTING := (TXC != IDLE)` (R29 (a)). -/
def transmitting (s : State) : Bool := s.txc.isSome

/-- `CK_ZERO := ((CK xor b) = 0)` (R29 (b)). -/
def ckZero (s : State) (b : Byte) : Bool := decide (s.ck ^^^ b = 0)

/-- `LEN_VALID := (0 < L and L <= MAXP)` with `L = LEN | zext_16(b)` (R29 (c)). -/
def lenValid (s : State) (b : Byte) : Bool :=
  decide (0 < (lengthLow s.len b).toNat) && decide ((lengthLow s.len b).toNat ≤ s.maxp)

/-- `LAST_BYTE := (CNT + 1 = LEN)` (R29 (d)). -/
def lastByte (s : State) : Bool := decide (s.cnt + 1 = s.len.toNat)

/-- P.DATA's own guard, `CNT + 1 < LEN` (R119): not LAST_BYTE, where R38 (I5) holds. -/
def moreBytes (s : State) : Bool := decide (s.cnt + 1 < s.len.toNat)

/-- `b = START_SENTINEL` (R29). -/
def isStart (b : Byte) : Bool := decide (b = Config.startSentinel)

/-- `b = TOKEN_SENTINEL` (R29). -/
def isToken (b : Byte) : Bool := decide (b = Config.tokenSentinel)

/-- The error class of a rejected length (R222, R223). -/
def lengthError (len : Length) : ErrorClass := if len = 0 then .lengthZero else .lengthOver

/-- The guard bit of the parser word: which of the rows of a key the data-dependent guard picks (R91). `none`
where neither row's guard holds, which R38 excludes. -/
def guardBit (s : State) (b : Byte) : Option Bool :=
  match s.st with
  | .start => some false
  | .waitSeq => some false
  | .waitLenMsb => some false
  | .waitLenLsb => some (!lenValid s b)
  | .waitToken => some false
  | .data => if moreBytes s then some false else if lastByte s then some true else none
  | .waitCksum => some (!ckZero s b)

end Sys2Proof.Machine
end

