-- ==== Sys2Proof/Machine/Parser.lean ====
section
/-! DEFINITION. The parser operations of spec/40_parser.md, and `accept_byte`, which performs one of them. -/

namespace Sys2Proof.Machine

/-- P.SYNC (R111): `CK <- b` with `b = START_SENTINEL`; `ST <- WAIT_SEQ`. -/
def execPSync (s : State) : Result :=
  ifSelected s (s.st == .start) (.next { s with ck := Config.startSentinel, st := .waitSeq })

/-- P.SKIP (R112): nothing changes. -/
def execPSkip (b : Byte) (s : State) : Result :=
  ifSelected s (s.st == .start && !isStart b) (.next s)

/-- P.SEQ (R113). -/
def execPSeq (b : Byte) (s : State) : Result :=
  ifSelected s (s.st == .waitSeq) (.next { s with ck := s.ck ^^^ b, seq := b, st := .waitLenMsb })

/-- P.LENH (R114). -/
def execPLenh (b : Byte) (s : State) : Result :=
  ifSelected s (s.st == .waitLenMsb)
    (.next { s with ck := s.ck ^^^ b, len := lengthHigh b, st := .waitLenLsb })

/-- P.LENL (R115). -/
def execPLenl (b : Byte) (s : State) : Result :=
  ifSelected s (s.st == .waitLenLsb && lenValid s b)
    (.next { s with ck := s.ck ^^^ b, len := lengthLow s.len b, cnt := 0, st := .waitToken })

/-- P.LENL.DROP (R116): the same register writes, then the error of the rejected length. -/
def execPLenlDrop (b : Byte) (s : State) : Result :=
  ifSelected s (s.st == .waitLenLsb && !lenValid s b)
    (.next ({ s with ck := s.ck ^^^ b, len := lengthLow s.len b, cnt := 0 }.takeError
      (lengthError (lengthLow s.len b))))

/-- P.TOKEN (R117): `CK <- CK xor b` with `b = TOKEN_SENTINEL`. -/
def execPToken (s : State) : Result :=
  ifSelected s (s.st == .waitToken) (.next { s with ck := s.ck ^^^ Config.tokenSentinel, st := .data })

/-- P.TOKEN.BAD (R118): `CK` is not updated (D8). -/
def execPTokenBad (b : Byte) (s : State) : Result :=
  ifSelected s (s.st == .waitToken && !isToken b) (.next (s.takeError .token))

/-- P.DATA (R119). -/
def execPData (b : Byte) (s : State) : Result :=
  ifSelected s (s.st == .data && moreBytes s)
    (ifInBuffer s (Config.head + s.cnt) (.next { s.storePayload b with ck := s.ck ^^^ b }))

/-- P.DATA.LAST (R120). -/
def execPDataLast (b : Byte) (s : State) : Result :=
  ifSelected s (s.st == .data && lastByte s)
    (ifInBuffer s (Config.head + s.cnt)
      (.next { s.storePayload b with ck := s.ck ^^^ b, st := .waitCksum }))

/-- P.CKSUM.OK (R121): `ST <- START`, then the dispatch with the Processor (R142, R144). -/
def execPCksumOk (b : Byte) (s : State) : Result :=
  ifSelected s (s.st == .waitCksum && ckZero s b)
    (callProcessor { s with ck := s.ck ^^^ b, st := .start })

/-- P.CKSUM.ERR (R122): `ST <- START`, then the dispatch of a bad checksum (R142, R143). -/
def execPCksumErr (b : Byte) (s : State) : Result :=
  ifSelected s (s.st == .waitCksum && !ckZero s b)
    (ifInBuffer s (Config.head + 2) (.next ({ s with ck := s.ck ^^^ b }.takeError .checksum)))

/-- The parser word that the state and the input byte make: the key `{ST, b}` of R91 with its guard bit. -/
def keyOf (s : State) (b : Byte) : Option (List Byte) :=
  (guardBit s b).map fun g => parserWord s.st g b

/-- The parser operation that the selector picks for an input byte (R91). -/
def selected (s : State) (b : Byte) : Option Instr :=
  (keyOf s b).bind fun w => decoded (decode .parser w)

/-- A parser operation performed; anything else is none. -/
def performParser (i : Instr) (s : State) : Result :=
  match i with
  | .pSync => execPSync s
  | .pSkip b => execPSkip b s
  | .pSeq b => execPSeq b s
  | .pLenh b => execPLenh b s
  | .pLenl b => execPLenl b s
  | .pLenlDrop b => execPLenlDrop b s
  | .pToken => execPToken s
  | .pTokenBad b => execPTokenBad b s
  | .pData b => execPData b s
  | .pDataLast b => execPDataLast b s
  | .pCksumOk b => execPCksumOk b s
  | .pCksumErr b => execPCksumErr b s
  | _ => .refused .notSelected

/-- `accept_byte(b)` (R110): exactly one parser operation, the one the selector picks. -/
def acceptByte (b : Byte) (s : State) : Result :=
  match selected s b with
  | some i => performParser i s
  | none => .refused .notSelected

end Sys2Proof.Machine
end

