-- ==== Sys2Proof/Machine/Driver.lean ====
section
/-! DEFINITION. The five micro-steps of `service` (spec/42_service_driver.md), each on the transport's answer as
its operand. -/

namespace Sys2Proof.Machine

/-- A transmit micro-step: it exists only while a response is pending and some of it is left to offer (R163 to
R166); the offered bytes lie in `BUF` (R59). -/
def ifPending (s : State) (r : Nat → Result) : Result :=
  match s.txc with
  | none => .refused .notSelected
  | some k => if k < s.txlen then ifInBuffer s (s.txlen - 1) (r k) else .refused .notSelected

/-- S.RX.NODATA (R162): `service` returns; nothing else changes. -/
def execSRxNodata (s : State) : Result :=
  if s.txc.isSome then .refused .notSelected else .next { s with serving := false }

/-- S.RX.BYTE (R161): the byte is consumed, one parser operation is performed, the loop continues. -/
def execSRxByte (b : Byte) (s : State) : Result :=
  acceptByte b { s.observe (.consumed b) with serving := true }

/-- S.TX.STALL (R165): `service` returns; the cursor keeps its offset. -/
def execSTxStall (s : State) : Result := ifPending s fun _ => .next { s with serving := false }

/-- S.TX.PART (R163): the first `n` offered bytes are accepted, `TXC <- TXC + n`, the loop continues. -/
def execSTxPart (n : Nat) (s : State) : Result :=
  ifPending s fun k =>
    if 0 < n ∧ n < s.txlen - k then
      .next { s.observe (.accepted (Memory.slice s.buf k n)) with txc := some (k + n), serving := true }
    else .refused .notSelected

/-- S.TX.DONE (R164): all offered bytes are accepted, the mode returns to RECEIVE, the loop continues. -/
def execSTxDone (s : State) : Result :=
  ifPending s fun k =>
    .next ({ s.observe (.accepted (s.offered k)) with serving := true }.returnToReceive)

end Sys2Proof.Machine
end

