-- ==== Sys2Proof/Machine/Frames.lean ====
section
/-! DEFINITION. The wire forms of spec/30_encoding.md as whole-frame transactions (log entry 10): a request is a
frame in the receive stream, a response is a frame in the transmit stream (R87). -/

namespace Sys2Proof.Machine

/-- FRAME.REQ (R80, R87, R95): the frame's bytes join the end of the receive stream. The engine's state does not
change; what it makes of them is the parser's business (R93). -/
def execFrameReq (seq : Byte) (payload : List Byte) (s : State) : Result :=
  if payload.length < 65536 then
    .next { s with rx := s.rx ++ (frameBytes seq payload).map .byte }
  else .refused .frameLength

/-- The pending response, none of it accepted yet, is this frame. -/
def isPendingFrame (s : State) (frame : List Byte) : Bool :=
  decide (s.txc = some 0) && decide (0 < s.txlen) && decide (s.offered 0 = frame)

/-- A whole pending frame accepted by the transport: what S.TX.PART and S.TX.DONE do together (R163, R164). -/
def sendFrame (s : State) (frame : List Byte) : Result :=
  if isPendingFrame s frame then
    if s.txlen ≤ s.capacity then
      .next ({ s.observe (.accepted frame) with serving := true }.returnToReceive)
    else .fault .bufOffset
  else .refused .notSelected

/-- FRAME.RSP (R87): the pending response `FRAME(seq; payload)` goes whole into the transmit stream. -/
def execFrameRsp (seq : Byte) (payload : List Byte) (s : State) : Result :=
  sendFrame s (frameBytes seq payload)

/-- FRAME.ERR (R88): the pending `ERRFRAME(seq)` goes whole into the transmit stream. -/
def execFrameErr (seq : Byte) (s : State) : Result := sendFrame s (errorFrame seq)

end Sys2Proof.Machine
end

