-- ==== Sys2Proof/Machine/Response.lean ====
section
/-! DEFINITION. The dispatch operations of spec/41_dispatch_response.md. They run inside P.CKSUM.OK and
P.CKSUM.ERR; as instructions of their own they act on the state those operations dispatch from, where `CK`
already holds the checksum residue (R142). -/

namespace Sys2Proof.Machine

/-- D.ERR (R143): runs when `CK != 0`. -/
def execDErr (s : State) : Result :=
  ifSelected s (s.ck != 0) (ifInBuffer s (Config.head + 2) (.next s.errorResponse))

/-- D.CALL (R144): runs when `CK = 0`; continues with D.RESP or D.NONE. -/
def execDCall (s : State) : Result := ifSelected s (s.ck == 0) (callProcessor s)

/-- `arm_response(len)` under its precondition (R148). -/
def armChecked (len : Nat) (s : State) : Result :=
  if 0 < len ∧ len ≤ s.maxp then .next (s.arm len) else .refused .armLength

/-- D.RESP (R145): the Processor returned `r > 0`. -/
def execDResp (r : Nat) (s : State) : Result := ifSelected s (decide (0 < r)) (armChecked r s)

/-- D.NONE (R146): the Processor returned zero; nothing changes. -/
def execDNone (s : State) : Result := ifSelected s true (.next s)

/-- D.ARM (R147): `arm_response(len)`. -/
def execDArm (len : Nat) (s : State) : Result := ifSelected s true (armChecked len s)

end Sys2Proof.Machine
end

