-- ==== Sys2Proof/Machine/Dispatch.lean ====
section
/-! DEFINITION. The meaning of every operation: one arm a constructor. -/

namespace Sys2Proof.Machine

def exec (i : Instr) (s : State) : Host.Outcome State Fault Refusal :=
  match i with
  -- spec/40_parser.md
  | .pSync => Sys2Proof.Machine.execPSync s
  | .pSkip b => Sys2Proof.Machine.execPSkip b s
  | .pSeq b => Sys2Proof.Machine.execPSeq b s
  | .pLenh b => Sys2Proof.Machine.execPLenh b s
  | .pLenl b => Sys2Proof.Machine.execPLenl b s
  | .pLenlDrop b => Sys2Proof.Machine.execPLenlDrop b s
  | .pToken => Sys2Proof.Machine.execPToken s
  | .pTokenBad b => Sys2Proof.Machine.execPTokenBad b s
  | .pData b => Sys2Proof.Machine.execPData b s
  | .pDataLast b => Sys2Proof.Machine.execPDataLast b s
  | .pCksumOk b => Sys2Proof.Machine.execPCksumOk b s
  | .pCksumErr b => Sys2Proof.Machine.execPCksumErr b s
  -- spec/41_dispatch_response.md
  | .dErr => Sys2Proof.Machine.execDErr s
  | .dCall => Sys2Proof.Machine.execDCall s
  | .dResp r => Sys2Proof.Machine.execDResp r s
  | .dNone => Sys2Proof.Machine.execDNone s
  | .dArm len => Sys2Proof.Machine.execDArm len s
  -- spec/42_service_driver.md
  | .sRxNodata => Sys2Proof.Machine.execSRxNodata s
  | .sRxByte b => Sys2Proof.Machine.execSRxByte b s
  | .sTxStall => Sys2Proof.Machine.execSTxStall s
  | .sTxPart n => Sys2Proof.Machine.execSTxPart n s
  | .sTxDone => Sys2Proof.Machine.execSTxDone s
  -- spec/70_reset_and_hazards.md
  | .reset capacity binding => Sys2Proof.Machine.execReset capacity binding s
  -- spec/30_encoding.md
  | .frameReq seq payload => Sys2Proof.Machine.execFrameReq seq payload s
  | .frameRsp seq payload => Sys2Proof.Machine.execFrameRsp seq payload s
  | .frameErr seq => Sys2Proof.Machine.execFrameErr seq s

end Sys2Proof.Machine
end

