-- ==== Sys2Proof/Machine/Fetch.lean ====
section
/-! DEFINITION. Which operation comes next. The engine fetches no instructions (R32): the next operation is
selected by whose turn it is, by `TXC` (R166) and by what the transport answers (R92). -/

namespace Sys2Proof.Machine

/-- How many of `offered` bytes the transport accepts at its next write: a limit `m` gives `min(m, offered)`, an
exhausted schedule accepts all, or keeps to the one limit it goes on with (R95, V34). Never more than offered
(R181, R182). -/
def accepts (wr : List Nat) (after : Option Nat) (offered : Nat) : Nat :=
  match wr, after with
  | m :: _, _ => min m offered
  | [], some m => min m offered
  | [], none => offered

/-- The transmit micro-step of a write that accepted `n` of `offered` bytes, in the order of R160. -/
def writeStep (n offered : Nat) : Instr :=
  if n = offered then .sTxDone else if n = 0 then .sTxStall else .sTxPart n

/-- The next answer of an endless sequence. -/
def tailAnswer : RxTail → RxAnswer
  | .silent => .noData
  | .repeats a _ => a
  | .free k n =>
    match Config.rxAnswer k n with
    | none => .noData
    | some b => .byte b

/-- The sequence after its next answer. -/
def tailNext : RxTail → RxTail
  | .silent => .silent
  | .repeats a [] => .repeats a []
  | .repeats a (b :: rest) => .repeats b (rest ++ [a])
  | .free k n => .free k (n + 1)

/-- `T.read_byte()`, the answer (R180): the next one listed, or else the next of the sequence after those. -/
def State.rxAnswer (s : State) : RxAnswer :=
  match s.rx with
  | a :: _ => a
  | [] => tailAnswer s.rxAfter

/-- `T.read_byte()`, the transport after it: the answer is gone (R57). -/
def State.afterRead (s : State) : State :=
  { s with
    rx := s.rx.tail
    rxAfter := match s.rx with
      | _ :: _ => s.rxAfter
      | [] => tailNext s.rxAfter }

/-- The receive micro-step of an answer (R160). -/
def readStep : RxAnswer → Instr
  | .noData => .sRxNodata
  | .byte b => .sRxByte b

/-- The transport is asked: a read in receive mode, a write in transmit mode (R160, R166). The answer selects
the micro-step and is taken from the transport; a byte read is gone (R57). -/
def fetchMicro (s : State) : Instr × State :=
  match s.txc with
  | none => (readStep s.rxAnswer, s.afterRead)
  | some k =>
    (writeStep (accepts s.wr s.wrAfter (s.txlen - k)) (s.txlen - k), { s with wr := s.wr.tail })

/-- The next operation and the state it acts on: the agent whose turn it is moves (R11). -/
def fetch (s : State) : Instr × State :=
  match s.schedule with
  | [] => fetchMicro s
  | .framer :: rest => fetchMicro { s with schedule := rest }
  | .peerSends seq payload :: rest => (.frameReq seq payload, { s with schedule := rest })
  | .construct c b :: rest => (.reset c b, { s with schedule := rest })

/-- The bytes still to come in a list of answers. -/
def unreadBytes : List RxAnswer → List Byte
  | [] => []
  | .noData :: rest => unreadBytes rest
  | .byte b :: rest => b :: unreadBytes rest

/-- Bytes may come in an endless sequence of answers. -/
def tailBrings : RxTail → Bool
  | .silent => false
  | .repeats a rest => !(unreadBytes (a :: rest)).isEmpty
  | .free _ _ => true

/-- Bytes may come from a transport with these answers. -/
def bringsBytes (rx : List RxAnswer) (after : RxTail) : Bool := !(unreadBytes rx).isEmpty || tailBrings after

/-- A turn that brings receive bytes. -/
def Turn.brings : Turn → Bool
  | .framer => false
  | .peerSends _ _ => true
  | .construct _ none => false
  | .construct _ (some b) => bringsBytes b.rx b.rxAfter

/-- The selected operation is S.RX.NODATA and leaves no byte to be read. -/
def drains (r : Instr × State) : Bool :=
  decide (r.1 = .sRxNodata) && !bringsBytes r.2.rx r.2.rxAfter

/-- The next step ends a run (R172): it is the return of `service` by S.RX.NODATA, and every receive byte has been
consumed, those included that turns still to come would bring. -/
def State.endsRun (s : State) : Bool := drains (fetch s) && !(fetch s).2.schedule.any Turn.brings

/-- The engine's turn in receive mode, with the transport answering `a`. -/
def State.willRead (s : State) (a : RxAnswer) : State :=
  { s with schedule := .framer :: s.schedule, txc := none, rx := a :: s.rx }

/-- The engine's turn in transmit mode with `txlen` bytes pending and the transport accepting up to `m`. -/
def State.willWrite (s : State) (txlen m : Nat) : State :=
  { s with
    schedule := .framer :: s.schedule, st := .start, txc := some 0, txlen := txlen, wr := m :: s.wr }

/-- The Processor answers the next call with `r` and writes nothing; the call moves `PS` on, so that later calls
are answered as they were. -/
def State.willAnswer (s : State) (r : Nat) : State :=
  { s with proc := ⟨some s.procState, .anything, ⟨[], r, some (s.procState + 1)⟩⟩ :: s.proc }

/-- The state in which the very next step runs `i`: the parser state and the data of the row's guard, the turn,
the direction and the transport's answer (log entry 5). A dispatch operation is placed as the parser operation
it runs inside. -/
def placeInstr (i : Instr) (s : State) : State :=
  match i with
  | .pSync => { s with st := .start }.willRead (.byte Config.startSentinel)
  | .pSkip b => { s with st := .start }.willRead (.byte b)
  | .pSeq b => { s with st := .waitSeq }.willRead (.byte b)
  | .pLenh b => { s with st := .waitLenMsb }.willRead (.byte b)
  | .pLenl b =>
    { s with
      st := .waitLenLsb, len := if b = 0 then 0x0100 else 0
      capacity := max s.capacity 262 }.willRead (.byte b)
  | .pLenlDrop b =>
    { s with st := .waitLenLsb, len := 0xFF00, capacity := min s.capacity 65285 }.willRead (.byte b)
  | .pToken => { s with st := .waitToken }.willRead (.byte Config.tokenSentinel)
  | .pTokenBad b => { s with st := .waitToken }.willRead (.byte b)
  | .pData b => { s with st := .data, cnt := 0, len := 2 }.willRead (.byte b)
  | .pDataLast b => { s with st := .data, cnt := 0, len := 1 }.willRead (.byte b)
  | .pCksumOk b => { s with st := .waitCksum, ck := b, len := 1 }.willRead (.byte b)
  | .pCksumErr b => { s with st := .waitCksum, ck := b ^^^ 1, len := 1 }.willRead (.byte b)
  | .dErr => { s with st := .waitCksum, ck := 1, len := 1 }.willRead (.byte 0)
  | .dCall => { s with st := .waitCksum, ck := 0, len := 1 }.willRead (.byte 0)
  | .dResp r => ({ s with st := .waitCksum, ck := 0, len := 1 }.willRead (.byte 0)).willAnswer r
  | .dNone => ({ s with st := .waitCksum, ck := 0, len := 1 }.willRead (.byte 0)).willAnswer 0
  | .dArm len => ({ s with st := .waitCksum, ck := 0, len := 1 }.willRead (.byte 0)).willAnswer len
  | .sRxNodata => s.willRead .noData
  | .sRxByte b => s.willRead (.byte b)
  | .sTxStall => s.willWrite 7 0
  | .sTxPart n => s.willWrite (max 7 (n + 1)) n
  | .sTxDone => s.willWrite 7 7
  | .reset c b => { s with serving := false, schedule := .construct c b :: s.schedule }
  | .frameReq seq p => { s with schedule := .peerSends seq p :: s.schedule }
  | .frameRsp seq p =>
    { s with seq := seq, buf := Memory.writeBytes [] 0 (frameBytes seq p) }.willWrite (p.length + 6) (p.length + 6)
  | .frameErr seq => { s with seq := seq, buf := Memory.writeBytes [] 0 (errorFrame seq) }.willWrite 8 8

end Sys2Proof.Machine
end

