-- ==== Sys2Proof/Machine/Service.lean ====
section
/-! DEFINITION. `service`, the one external entry point (R160), as a run of micro-steps (R168). -/

namespace Sys2Proof.Machine

/-- One micro-step of the engine (R169): the transport's answer and the operation it selects. -/
def microStep (s : State) : Result := exec (fetchMicro s).1 (fetchMicro s).2

/-- The state from which `service` performs the last micro-step of a call cut after `fuel` of them. -/
def lastMicro : Nat → State → State
  | 0, s => s
  | fuel + 1, s =>
    match microStep s with
    | .next t => if t.serving then lastMicro fuel t else s
    | .fault _ => s
    | .refused _ => s

/-- `service` (R160), cut after `fuel` micro-steps: micro-steps until one returns (S.RX.NODATA, S.TX.STALL).
The loop of R160 has no bound of its own (R168). -/
def service : Nat → State → Result
  | 0, s => .next s
  | fuel + 1, s =>
    match microStep s with
    | .next t => if t.serving then service fuel t else .next t
    | .fault f => .fault f
    | .refused r => .refused r

end Sys2Proof.Machine
end

