-- ==== Sys2Proof/Machine/Step.lean ====
section
/-! DEFINITION. One step of the machine, and the state whose next step runs a given word of the opcode table. -/

namespace Sys2Proof.Machine

/-- One atomic step (R9, R56, R169): the next operation is selected and performed. -/
def step (s : State) : Host.Outcome State Fault Refusal := exec (fetch s).1 (fetch s).2

/-- The state in which the next step runs the operation of this table word; `s` itself where the word is no
operation. -/
def State.withFetchWord (s : State) (nbits w : Nat) : State :=
  match decodeTableWord nbits w with
  | some i => placeInstr i s
  | none => s

end Sys2Proof.Machine
end

