-- ==== Sys2Proof/Machine/Stimulus.lean ====
section
/-! DEFINITION. The stimulus notation of R95: what each line does to the machine, and what becomes of a run on a
stimulus (R172). -/

namespace Sys2Proof.Machine

/-- A line of a stimulus (R95); `expect` lines are claims about the state and the trace. -/
inductive StimulusLine where
  /-- `cap N`: constructs an instance of that capacity on the same channel. -/
  | cap (n : Nat)
  /-- `rx <bytes>`: bytes for the receive stream. -/
  | rx (bytes : List Byte)
  /-- `wr n1 n2 ...`: acceptance limits for the next writes. -/
  | wr (limits : List Nat)
  /-- `wr m m m ...` without an end (V34): the limit of every write after those listed. -/
  | wrForEver (m : Nat)
  /-- `proc [<payload>] -> [<response>]`: what the Processor answers for that payload. -/
  | proc (payload response : List Byte)
  /-- `svc`: one `service` call. -/
  | svc
deriving DecidableEq, Repr

/-- Enough micro-steps for a `service` call on the answers listed, where the endless sequence after them brings no
byte: each byte read may arm a response of up to `CAPACITY` bytes, each write that does not return takes a byte of
the pending one, and one micro-step returns. A peer that sends without an end may keep a call busy without bound
(R168, R272). -/
def State.patience (s : State) : Nat := s.rx.length * (s.capacity + 1) + s.txlen + 1

/-- The answer of a Processor that writes its response at the base of the region and nothing else (R187). -/
def simpleAnswer (response : List Byte) : ProcAnswer where
  writes := (List.range response.length).zip response
  length := response.length
  next := none

/-- `proc [<payload>] -> [<response>]` as a case of the Processor, whatever its state and the stale bytes (R95,
R187). -/
def simpleCase (payload response : List Byte) : ProcCase where
  state := none
  view := .payload payload
  answer := simpleAnswer response

/-- One line performed. A `proc` line goes before the earlier ones: the last line for a payload counts (log
entry 6). -/
def performLine (l : StimulusLine) (s : State) : Result :=
  match l with
  | .cap n => exec (.reset n none) s
  | .rx bytes => .next { s with rx := s.rx ++ bytes.map .byte }
  | .wr limits => .next { s with wr := s.wr ++ limits }
  | .wrForEver m => .next { s with wrAfter := some m }
  | .proc payload response => .next { s with proc := simpleCase payload response :: s.proc }
  | .svc => service s.patience s

/-- A stimulus performed line by line, up to the first fault or refusal. -/
def performStimulus : List StimulusLine → State → Result
  | [], s => .next s
  | l :: rest, s =>
    match performLine l s with
    | .next t => performStimulus rest t
    | .fault f => .fault f
    | .refused r => .refused r

/-- The line brings receive bytes. -/
def StimulusLine.brings : StimulusLine → Bool
  | .cap _ => false
  | .rx bytes => !bytes.isEmpty
  | .wr _ => false
  | .wrForEver _ => false
  | .proc _ _ => false
  | .svc => false

/-- The line, if it returns, ends the run on a stimulus whose other lines are `rest` (R172): a `service` call that
returns by S.RX.NODATA with every receive byte of the stimulus consumed. -/
def StimulusLine.endsRun (l : StimulusLine) (rest : List StimulusLine) (s : State) : Bool :=
  match l with
  | .svc => drains (fetchMicro (lastMicro s.patience s)) && !rest.any StimulusLine.brings
  | .cap _ => false
  | .rx _ => false
  | .wr _ => false
  | .wrForEver _ => false
  | .proc _ _ => false

/-- A response is pending and the write schedule lets no byte of it out, ever (R172, R236). -/
def State.stalledForEver (s : State) : Bool :=
  s.txc.isSome && s.wr.all (fun m => decide (m = 0)) && decide (s.wrAfter = some 0)

/-- The bytes of the pending response that are still to be sent. -/
def State.pendingBytes (s : State) : List Byte :=
  match s.txc with
  | none => []
  | some k => s.offered k

/-- What becomes of a run on a stimulus (R172). -/
inductive RunReport where
  /-- The run ended, in this state. -/
  | ended (t : State)
  /-- The run never ends: these bytes of the pending response stay in the buffer for ever. -/
  | neverEnds (pending : List Byte) (t : State)
  /-- A `service` call has not returned in the patience it was given; fed without an end it need not (R168). -/
  | inService (t : State)
  /-- The stimulus is over and the run has not ended. -/
  | unfinished (t : State)
  /-- The machine stopped. -/
  | fault (f : Fault)
  /-- A line was refused. -/
  | refused (r : Refusal)
deriving DecidableEq, Repr

/-- The run on a stimulus, up to its end (R172). -/
def runStimulus : List StimulusLine → State → RunReport
  | [], s => if s.stalledForEver then .neverEnds s.pendingBytes s else .unfinished s
  | l :: rest, s =>
    match performLine l s with
    | .next t =>
      if l = .svc ∧ t.serving = true then .inService t
      else if l.endsRun rest s then .ended t
      else runStimulus rest t
    | .fault f => .fault f
    | .refused r => .refused r

end Sys2Proof.Machine
end

