-- ==== Sys2Proof/Safety.lean ====
section
/-! DEFINITION. What counts as a good state and what an observer sees, in the terms the statements use: the
observation of R12, the invariants of R38, the meaningful values of R30, the Processor's contract of R184, and
runs of several steps with the operations they perform. -/

namespace Sys2Proof.Machine

/-- `n` steps, ending at the first fault or refusal. -/
def run : Nat → State → Result
  | 0, s => .next s
  | n + 1, s =>
    match step s with
    | .next t => run n t
    | .fault f => .fault f
    | .refused r => .refused r

/-- The operations that the next `n` steps perform, in order: for a received byte the parser operation on it. -/
def operations : Nat → State → List Instr
  | 0, _ => []
  | n + 1, s =>
    (match (fetch s).1 with
      | .sRxByte b => (selected (fetch s).2 b).toList
      | i => [i]) ++
    (match step s with
      | .next t => operations n t
      | .fault _ => []
      | .refused _ => [])

/-- The byte of a consumption. -/
def Event.consumedByte : Event → Option Byte
  | .consumed b => some b
  | .called _ _ _ => none
  | .accepted _ => none

/-- The bytes of an acceptance. -/
def Event.acceptedBytes : Event → List Byte
  | .consumed _ => []
  | .called _ _ _ => []
  | .accepted bytes => bytes

/-- The bytes consumed from the receive stream, in order (R12 (a)). -/
def State.consumedBytes (s : State) : List Byte := s.trace.filterMap Event.consumedByte

/-- The transmit stream: all bytes the transport accepted, in order (R12 (b), R50). -/
def State.transmitted (s : State) : List Byte := s.trace.flatMap Event.acceptedBytes

/-- The last `n` elements. -/
def lastOf (n : Nat) (l : List Byte) : List Byte := l.drop (l.length - n)

/-- `ST = START` and `TXC = IDLE` (R200). -/
def State.idle (s : State) : Prop := s.st = .start ∧ s.txc = none

/-- How many bytes of the frame in progress have been consumed, its START byte included (R38, I6). -/
def State.framePosition (s : State) : Nat :=
  match s.st with
  | .start => 0
  | .waitSeq => 1
  | .waitLenMsb => 2
  | .waitLenLsb => 3
  | .waitToken => 4
  | .data => Config.head + s.cnt
  | .waitCksum => Config.head + s.cnt

/-- The bytes of the frame in progress consumed so far. -/
def State.frameSoFar (s : State) : List Byte := lastOf s.framePosition s.consumedBytes

/-- A state in which the length has been accepted and the frame is not finished. -/
def State.inPayload (s : State) : Prop := s.st = .waitToken ∨ s.st = .data ∨ s.st = .waitCksum

/-- The invariants of R38, with the bounds of R7, R25 and R28 and the canonical form of `BUF`. I1 is `ST`'s
type. -/
structure Inv (s : State) : Prop where
  /-- `8 <= CAPACITY <= 65541` (R7). -/
  capacity : capacityValid s.capacity = true
  /-- `BUF` is in canonical form. -/
  memory : Memory.wf s.buf = true
  /-- `BUF` holds no byte outside `0 .. CAPACITY-1` (R26). -/
  bounded : ∀ c ∈ s.buf, c.1 < s.capacity
  /-- `CNT` fits 16 bits (R25). -/
  countWidth : s.cnt < 65536
  /-- `TXLEN` fits 17 bits (R28). -/
  txlenWidth : s.txlen < 131072
  /-- I2. -/
  cursor : ∀ k, s.txc = some k → k < s.txlen ∧ 7 ≤ s.txlen ∧ s.txlen ≤ s.capacity
  /-- I3. -/
  interlock : s.txc ≠ none → s.st = .start
  /-- I4. -/
  length : s.inPayload → 0 < s.len.toNat ∧ s.len.toNat ≤ s.maxp
  /-- I5, state WAIT_TOKEN. -/
  countToken : s.st = .waitToken → s.cnt = 0
  /-- I5, state DATA. -/
  countData : s.st = .data → s.cnt < s.len.toNat
  /-- I5, state WAIT_CKSUM. -/
  countCksum : s.st = .waitCksum → s.cnt = s.len.toNat
  /-- I6. -/
  checksum : s.st ≠ .start → s.framePosition ≤ s.consumedBytes.length ∧ s.ck = xorAll s.frameSoFar
  /-- I7. -/
  payload : s.st = .data ∨ s.st = .waitCksum →
    Memory.slice s.buf Config.head s.cnt = s.frameSoFar.drop Config.head
  /-- I8. -/
  response : ∀ k, s.txc = some k →
    (∃ p, Memory.slice s.buf 0 s.txlen = frameBytes s.seq p) ∧
      k ≤ s.transmitted.length ∧ lastOf k s.transmitted = Memory.slice s.buf 0 k

/-- The Processor keeps the contract of R184 in each of its cases; the free oracle keeps it anyway. -/
def State.processorKeepsContract (s : State) : Prop := ∀ c ∈ s.proc, answerFits s.maxp c.answer = true

/-- `a` is what the Processor answers to a call made in this state: the answer of the first of its cases that
holds, or that of the free oracle where none does (R186). -/
def State.answeredBy (s : State) (a : ProcAnswer) : Prop :=
  (∃ before c after, s.proc = before ++ c :: after ∧ (∀ x ∈ before, s.inCase x = false) ∧ s.inCase c = true ∧
    a = c.answer) ∨
  (∀ x ∈ s.proc, s.inCase x = false) ∧ a = s.freeAnswer

/-- The run from `s` ends in `t` (R172): `t` is the state after the first return of `service` by S.RX.NODATA at
which every receive byte has been consumed. -/
def RunEnds (s t : State) : Prop :=
  ∃ n u, run n s = .next u ∧ u.endsRun = true ∧ step u = .next t ∧
    ∀ m, m < n → ∀ v, run m s = .next v → v.endsRun = false

/-- `t` is `s` but for registers that are not meaningful in it (R30): `CK` in state START, `SEQ` before P.SEQ,
`LEN` before P.LENH, `CNT` before P.LENL, `TXLEN` while `TXC = IDLE`. -/
def SameButDead (s t : State) : Prop :=
  t = { s with ck := t.ck, seq := t.seq, len := t.len, cnt := t.cnt, txlen := t.txlen } ∧
  (s.st ≠ .start → t.ck = s.ck) ∧
  (s.st ≠ .start → s.st ≠ .waitSeq → t.seq = s.seq) ∧
  (s.st = .waitLenLsb ∨ s.inPayload → t.len = s.len) ∧
  (s.inPayload → t.cnt = s.cnt) ∧
  (s.txc ≠ none → t.txlen = s.txlen)

/-- Two outcomes of the same kind: the same stop, or next states that are related. -/
def SameOutcome (rel : State → State → Prop) : Result → Result → Prop
  | .next s, .next t => rel s t
  | .fault f, .fault g => f = g
  | .refused f, .refused g => f = g
  | _, _ => False

/-- `u` is `s` after its transport has handed over exactly these bytes, whether they were listed or came of the
endless sequence after the list. -/
def State.handsOver : State → List Byte → State → Prop
  | s, [], u => u = s
  | s, b :: rest, u => s.rxAnswer = .byte b ∧ s.afterRead.handsOver rest u

/-- Every answer of an endless sequence is a byte. -/
def tailSends : RxTail → Prop
  | .silent => False
  | .repeats a rest => ∀ x ∈ a :: rest, x ≠ .noData
  | .free k n => ∀ m, n ≤ m → Config.rxAnswer k m ≠ none

/-- The peer sends without an end: the transport answers a byte to every read (R168, R272). -/
def State.fedWithoutEnd (s : State) : Prop := (∀ a ∈ s.rx, a ≠ .noData) ∧ tailSends s.rxAfter

/-- The transport takes something of every write (R168, R272). -/
def State.neverRefused (s : State) : Prop := (∀ m ∈ s.wr, 0 < m) ∧ s.wrAfter ≠ some 0

/-- `t` is `s` but for how the unread bytes are cut by `NoData` answers and whether a `service` call is in
progress (R201). -/
def SameStream (s t : State) : Prop :=
  t = { s with rx := t.rx, serving := t.serving } ∧ unreadBytes t.rx = unreadBytes s.rx

/-- How many further bytes bring `ST` back to START at the latest (R210). -/
def State.bytesToStart (s : State) : Nat :=
  match s.st with
  | .start => 0
  | .waitSeq => s.maxp + 5
  | .waitLenMsb => s.maxp + 4
  | .waitLenLsb => s.maxp + 3
  | .waitToken => s.len.toNat + 2
  | .data => s.len.toNat - s.cnt + 1
  | .waitCksum => 1

end Sys2Proof.Machine
end

