-- ==== Sys2Proof/Certificates/Slice0/Obligations.lean ====
section
/-! DEFINITION. The statements for the provers. Each cites the rules of spec/ it formalises in OBLIGATIONS.json. -/

open Sys2Proof Sys2Proof.Machine

/-! ## The parser operations (spec/40_parser.md) -/

/-- R111, P.SYNC: in state START the byte 0x1B, and every such byte, starts a frame: `CK` becomes 0x1B whatever
it held, and nothing else but `ST` changes. -/
def Obligations.SyncStartsFrame : Prop :=
  ∀ s : State, s.txc = none → s.st = .start →
    exec .pSync s = .next { s with ck := 0x1B, st := .waitSeq } ∧ acceptByte 0x1B s = exec .pSync s

/-- R112, P.SKIP: in state START any other byte is ignored. -/
def Obligations.SkipIgnoresNoise : Prop :=
  ∀ (s : State) (b : Byte), s.txc = none → s.st = .start → b ≠ 0x1B →
    exec (.pSkip b) s = .next s ∧ acceptByte b s = exec (.pSkip b) s

/-- R113, P.SEQ: any byte, 0x1B included, is stored as SEQ. -/
def Obligations.SeqByteStored : Prop :=
  ∀ (s : State) (b : Byte), s.txc = none → s.st = .waitSeq →
    exec (.pSeq b) s = .next { s with ck := s.ck ^^^ b, seq := b, st := .waitLenMsb } ∧
      acceptByte b s = exec (.pSeq b) s

/-- R114, P.LENH: the whole of LEN becomes the byte shifted left by 8; no range check. -/
def Obligations.LengthHighByteStored : Prop :=
  ∀ (s : State) (b : Byte), s.txc = none → s.st = .waitLenMsb →
    exec (.pLenh b) s =
        .next { s with ck := s.ck ^^^ b, len := b.setWidth 16 <<< 8, st := .waitLenLsb } ∧
      acceptByte b s = exec (.pLenh b) s

/-- R115, P.LENL: a length in `1 .. MAXP`, both ends included, is accepted. -/
def Obligations.LengthLowByteAccepted : Prop :=
  ∀ (s : State) (b : Byte), s.txc = none → s.st = .waitLenLsb →
    0 < (s.len ||| b.setWidth 16).toNat → (s.len ||| b.setWidth 16).toNat ≤ s.capacity - 6 →
    exec (.pLenl b) s =
        .next { s with ck := s.ck ^^^ b, len := s.len ||| b.setWidth 16, cnt := 0, st := .waitToken } ∧
      acceptByte b s = exec (.pLenl b) s

/-- R116, P.LENL.DROP: a length of 0 or above `MAXP` drops the frame: the register writes of the action column,
then `ST <- START`; no buffer byte is written and the Processor is not called. -/
def Obligations.LengthLowByteRejected : Prop :=
  ∀ (s : State) (b : Byte), s.txc = none → s.st = .waitLenLsb →
    (s.len ||| b.setWidth 16).toNat = 0 ∨ s.capacity - 6 < (s.len ||| b.setWidth 16).toNat →
    exec (.pLenlDrop b) s =
        .next { s with ck := s.ck ^^^ b, len := s.len ||| b.setWidth 16, cnt := 0, st := .start } ∧
      acceptByte b s = exec (.pLenlDrop b) s

/-- R117, P.TOKEN: the byte 0x0E in state WAIT_TOKEN. -/
def Obligations.TokenRecognised : Prop :=
  ∀ s : State, s.txc = none → s.st = .waitToken →
    exec .pToken s = .next { s with ck := s.ck ^^^ 0x0E, st := .data } ∧ acceptByte 0x0E s = exec .pToken s

/-- R118, P.TOKEN.BAD: any other byte, 0x1B included, drops the frame; nothing but `ST` changes. -/
def Obligations.BadTokenDropsFrame : Prop :=
  ∀ (s : State) (b : Byte), s.txc = none → s.st = .waitToken → b ≠ 0x0E →
    exec (.pTokenBad b) s = .next { s with st := .start } ∧ acceptByte b s = exec (.pTokenBad b) s

/-- R119, P.DATA: the byte goes to `BUF[5 + CNT]` with `CNT` before the increment, an offset of at most
`CAPACITY - 3` while `LEN <= MAXP`; every other byte of `BUF` keeps its value. -/
def Obligations.PayloadByteStored : Prop :=
  ∀ (s : State) (b : Byte), s.txc = none → s.st = .data → s.cnt + 1 < s.len.toNat →
    s.len.toNat ≤ s.maxp → Memory.wf s.buf = true →
    5 + s.cnt ≤ s.capacity - 3 ∧ ∃ t, exec (.pData b) s = .next t ∧ acceptByte b s = .next t ∧
      t = { s with ck := s.ck ^^^ b, cnt := s.cnt + 1, buf := t.buf } ∧
      ∀ a, Memory.read t.buf a = if a = 5 + s.cnt then b else Memory.read s.buf a

/-- R120, P.DATA.LAST: as P.DATA, and the parser goes on to the checksum byte. The offset is at most
`CAPACITY - 2`, and that when `LEN = MAXP`. -/
def Obligations.LastPayloadByteStored : Prop :=
  ∀ (s : State) (b : Byte), s.txc = none → s.st = .data → s.cnt + 1 = s.len.toNat →
    s.len.toNat ≤ s.maxp → Memory.wf s.buf = true →
    5 + s.cnt ≤ s.capacity - 2 ∧ (s.len.toNat = s.maxp → 5 + s.cnt = s.capacity - 2) ∧
    ∃ t, exec (.pDataLast b) s = .next t ∧ acceptByte b s = .next t ∧
      t = { s with ck := s.ck ^^^ b, cnt := s.cnt + 1, st := .waitCksum, buf := t.buf } ∧ t.cnt = t.len.toNat ∧
      ∀ a, Memory.read t.buf a = if a = 5 + s.cnt then b else Memory.read s.buf a

/-- R121 with R144 to R146, P.CKSUM.OK: the checksum byte equals `CK`. The Processor is called once, on the
payload in place, and what it writes stands in `BUF`; with `R = 0` nothing is armed and nothing else of `BUF`
changes, with `R > 0` the frame armed has as its payload the first `R` bytes of the region as the Processor left
it. -/
def Obligations.GoodChecksumCallsProcessor : Prop :=
  ∀ (s : State) (b : Byte) (a : ProcAnswer), s.txc = none → s.st = .waitCksum → b = s.ck →
    s.len.toNat ≤ s.maxp → s.answeredBy a → answerFits s.maxp a = true → Memory.wf s.buf = true →
    ∃ t, exec (.pCksumOk b) s = .next t ∧ acceptByte b s = .next t ∧
      exec (.pCksumOk b) s = exec .dCall { s with ck := 0, st := .start } ∧
      t = { s with
        st := .start, ck := t.ck, buf := t.buf, txc := t.txc, txlen := t.txlen
        procState := a.next.getD s.procState
        trace := s.trace ++ [.called s.payload a.length
          (Memory.slice (Memory.writeCells s.buf 5 a.writes) 5 a.length)] } ∧
      (a.length = 0 → t.txc = none ∧ t.ck = 0 ∧ t.txlen = s.txlen ∧
        t.buf = Memory.writeCells s.buf 5 a.writes) ∧
      (0 < a.length → t.txc = some 0 ∧ t.txlen = a.length + 6 ∧
        Memory.slice t.buf 0 (a.length + 6) =
          frameBytes s.seq (Memory.slice (Memory.writeCells s.buf 5 a.writes) 5 a.length) ∧
        ∀ i, 5 ≤ i → i ≠ 5 + a.length →
          Memory.read t.buf i = Memory.read (Memory.writeCells s.buf 5 a.writes) i) ∧
      ∀ i, (∀ c ∈ a.writes, i ≠ 5 + c.1) →
        Memory.read (Memory.writeCells s.buf 5 a.writes) i = Memory.read s.buf i

/-- R122 with R143, P.CKSUM.ERR: the checksum byte is wrong. The Processor is not called; `BUF[0 .. 8)` is the
error response of R88 with the SEQ as received, every other byte of `BUF` keeps its value. -/
def Obligations.BadChecksumArmsErrorResponse : Prop :=
  ∀ (s : State) (b : Byte), s.txc = none → s.st = .waitCksum → s.ck ^^^ b ≠ 0 →
    capacityValid s.capacity = true → Memory.wf s.buf = true →
    ∃ t, exec (.pCksumErr b) s = .next t ∧ acceptByte b s = .next t ∧
      t = { s with st := .start, ck := 0x66 ^^^ s.seq, buf := t.buf, txc := some 0, txlen := 8 } ∧
      Memory.slice t.buf 0 8 = [0x1B, s.seq, 0x00, 0x02, 0x0E, 0xB0, 0xC1, 0x66 ^^^ s.seq] ∧
      ∀ a, 8 ≤ a → Memory.read t.buf a = Memory.read s.buf a

/-- R91: the selector map. In each parser state the byte and the guard pick the row of the table, and
`accept_byte` performs that operation. -/
def Obligations.SelectorPicksTableRow : Prop :=
  ∀ (s : State) (b : Byte),
    (s.st = .start → acceptByte b s = if b = 0x1B then exec .pSync s else exec (.pSkip b) s) ∧
    (s.st = .waitSeq → acceptByte b s = exec (.pSeq b) s) ∧
    (s.st = .waitLenMsb → acceptByte b s = exec (.pLenh b) s) ∧
    (s.st = .waitLenLsb → acceptByte b s =
      if 0 < (s.len ||| b.setWidth 16).toNat ∧ (s.len ||| b.setWidth 16).toNat ≤ s.maxp
      then exec (.pLenl b) s else exec (.pLenlDrop b) s) ∧
    (s.st = .waitToken → acceptByte b s = if b = 0x0E then exec .pToken s else exec (.pTokenBad b) s) ∧
    (s.st = .data → s.cnt + 1 < s.len.toNat → acceptByte b s = exec (.pData b) s) ∧
    (s.st = .data → s.cnt + 1 = s.len.toNat → acceptByte b s = exec (.pDataLast b) s) ∧
    (s.st = .waitCksum → acceptByte b s =
      if s.ck ^^^ b = 0 then exec (.pCksumOk b) s else exec (.pCksumErr b) s)

/-- R123: in every state that R38 allows, every byte is taken by exactly one parser operation, which completes:
no fault, no refusal (the Processor within its contract). This is also where S.RX.BYTE completes. -/
def Obligations.EveryByteIsAccepted : Prop :=
  ∀ (s : State) (b : Byte), Inv s → s.txc = none → s.processorKeepsContract →
    (∃ i, selected s b = some i ∧ acceptByte b s = exec i s) ∧ (∃ t, acceptByte b s = .next t) ∧
      ∃ t, exec (.sRxByte b) s = .next t

/-- U5 and R110: while a response is pending no parser operation exists. That the model refuses it by name is its
own choice (log entry 7). -/
def Obligations.NoParsingWhileTransmitting : Prop :=
  ∀ (s : State) (b : Byte) (k r n : Nat), s.txc = some k →
    (∀ i ∈ [Instr.pSync, .pSkip b, .pSeq b, .pLenh b, .pLenl b, .pLenlDrop b, .pToken, .pTokenBad b, .pData b,
      .pDataLast b, .pCksumOk b, .pCksumErr b, .dErr, .dCall, .dResp r, .dNone, .dArm n],
      exec i s = .refused .transmitting) ∧ ∀ t, exec (.sRxByte b) s ≠ .next t

/-! ## Dispatch and response (spec/41_dispatch_response.md) -/

/-- R143 with R88, D.ERR: `BUF[0 .. 8)` becomes `ERRFRAME(SEQ)`, `TXLEN = 8`, `TXC = 0`; the Processor is not
called and nothing else changes. -/
def Obligations.ErrorResponseBuilt : Prop :=
  ∀ s : State, s.txc = none → s.ck ≠ 0 → capacityValid s.capacity = true → Memory.wf s.buf = true →
    ∃ t, exec .dErr s = .next t ∧
      t = { s with ck := 0x66 ^^^ s.seq, buf := t.buf, txc := some 0, txlen := 8 } ∧
      Memory.slice t.buf 0 8 = [0x1B, s.seq, 0x00, 0x02, 0x0E, 0xB0, 0xC1, 0x66 ^^^ s.seq] ∧
      ∀ a, 8 ≤ a → Memory.read t.buf a = Memory.read s.buf a

/-- R144, D.CALL, for every answer of the Processor within its contract: exactly one invocation on the request
payload; then D.RESP or D.NONE by the returned length, on the state `u` in which the bytes the Processor wrote
stand in the payload region, the last one written to an offset, and no other byte of `BUF` has changed. The
Processor's own state becomes what it leaves (R186). -/
def Obligations.ProcessorCallCompletes : Prop :=
  ∀ (s : State) (a : ProcAnswer), s.txc = none → s.ck = 0 → s.len.toNat ≤ s.maxp → s.answeredBy a →
    answerFits s.maxp a = true → Memory.wf s.buf = true →
    ∃ u, exec .dCall s = (if 0 < a.length then exec (.dResp a.length) u else exec .dNone u) ∧
      (∃ t, exec .dCall s = .next t) ∧
      u = { s with
        buf := Memory.writeCells s.buf Config.head a.writes, procState := a.next.getD s.procState
        trace := s.trace ++ [.called (Memory.slice s.buf 5 s.len.toNat) a.length (Memory.slice u.buf 5 a.length)] } ∧
      (∀ before c after, a.writes = before ++ c :: after → (∀ x ∈ after, x.1 ≠ c.1) →
        Memory.read u.buf (5 + c.1) = c.2) ∧
      ∀ i, (∀ c ∈ a.writes, i ≠ 5 + c.1) → Memory.read u.buf i = Memory.read s.buf i

/-- R145, D.RESP: the response length `R` in `1 .. MAXP` is framed as D.ARM frames it. -/
def Obligations.ResponseFramed : Prop :=
  ∀ (s : State) (r : Nat), s.txc = none → 0 < r → r ≤ s.maxp →
    ∃ t, exec (.dResp r) s = .next t ∧ exec (.dArm r) s = .next t

/-- R146, D.NONE: no response; nothing changes. -/
def Obligations.NoResponseChangesNothing : Prop :=
  ∀ s : State, s.txc = none → exec .dNone s = .next s

/-- R147, D.ARM: header, the payload in place, and the checksum recomputed from the buffer; cursor at 0.
`LEN`, `CNT` and every other register are unchanged, and so is every byte of `BUF` but the header and
`BUF[HEAD + len]`. -/
def Obligations.ArmFramesPayload : Prop :=
  ∀ (s : State) (n : Nat), s.txc = none → 1 ≤ n → n ≤ s.maxp → Memory.wf s.buf = true →
    ∃ t, exec (.dArm n) s = .next t ∧
      Memory.slice t.buf 0 5 = [0x1B, s.seq, BitVec.ofNat 8 (n / 256), BitVec.ofNat 8 (n % 256), 0x0E] ∧
      t.ck = xorAll (Memory.slice t.buf 0 (5 + n)) ∧ Memory.read t.buf (5 + n) = t.ck ∧
      (∀ a, 5 ≤ a → a ≠ 5 + n → Memory.read t.buf a = Memory.read s.buf a) ∧
      t = { s with buf := t.buf, ck := t.ck, txlen := n + 6, txc := some 0 }

/-- R151: every frame that `arm_response` builds is well formed by R80 and would be accepted by a Framer of the
same `CAPACITY`: the frame decodes to its SEQ and payload, and the payload's length is in `1 .. MAXP`. -/
def Obligations.ArmedFrameIsWellFormed : Prop :=
  ∀ (s t : State) (n : Nat), Memory.wf s.buf = true → capacityValid s.capacity = true →
    exec (.dArm n) s = .next t →
    1 ≤ n ∧ n ≤ t.maxp ∧ t.txlen ≤ t.capacity ∧
      decodeFrame (Memory.slice t.buf 0 t.txlen) = .ok (s.seq, Memory.slice t.buf 5 n) ∧
      Memory.slice t.buf 5 n = Memory.slice s.buf 5 n

/-- R148 and U3: `arm_response` outside `1 .. MAXP` has no behaviour. That the model refuses it by name is its own
choice (log entry 11). -/
def Obligations.ArmLengthOutsideRangeRefused : Prop :=
  ∀ (s : State) (n : Nat), s.txc = none → n = 0 ∨ s.maxp < n →
    exec (.dArm n) s = .refused .armLength ∧ (s.maxp < n → exec (.dResp n) s = .refused .armLength)

/-- U3: a Processor that returns more than `MAXP`, or writes outside the payload region, is a fault as it
returns: the spec gives no behaviour and recommends this treatment; taking it is the model's choice (log
entry 11). -/
def Obligations.ProcessorBreachFaults : Prop :=
  ∀ (s : State) (a : ProcAnswer), s.txc = none → s.ck = 0 → s.len.toNat ≤ s.maxp → s.answeredBy a →
    (s.maxp < a.length → exec .dCall s = .fault .processorLength) ∧
      (a.length ≤ s.maxp → (∃ c ∈ a.writes, s.maxp ≤ c.1) → exec .dCall s = .fault .processorRegion)

/-! ## The driver (spec/42_service_driver.md) -/

/-- R162, S.RX.NODATA: `service` returns; no register and no buffer byte changes, in any parser state. -/
def Obligations.NoDataReturns : Prop :=
  ∀ s : State, s.txc = none → exec .sRxNodata s = .next { s with serving := false }

/-- R165, S.TX.STALL: `service` returns; the cursor keeps its offset and nothing is transmitted. -/
def Obligations.StallReturns : Prop :=
  ∀ (s : State) (k : Nat), s.txc = some k → k < s.txlen → s.txlen ≤ s.capacity →
    exec .sTxStall s = .next { s with serving := false }

/-- R163, S.TX.PART: the first `n` of the offered bytes are transmitted and the cursor advances by `n`. -/
def Obligations.ShortWriteAdvancesCursor : Prop :=
  ∀ (s : State) (k n : Nat), s.txc = some k → s.txlen ≤ s.capacity → 0 < n → n < s.txlen - k →
    ∃ t, exec (.sTxPart n) s = .next t ∧
      t = { s with txc := some (k + n), serving := true, trace := t.trace } ∧
      t.trace = s.trace ++ [.accepted (Memory.slice s.buf k n)] ∧
      Memory.slice s.buf k n = (s.offered k).take n ∧ t.offered (k + n) = (s.offered k).drop n

/-- R164, S.TX.DONE: all that remained is transmitted, the cursor becomes `IDLE`; `TXLEN`, `BUF`, `SEQ`, `ST` are
unchanged. -/
def Obligations.CompleteWriteReturnsToReceive : Prop :=
  ∀ (s : State) (k : Nat), s.txc = some k → k < s.txlen → s.txlen ≤ s.capacity →
    exec .sTxDone s = .next { s with
      txc := none, serving := true, trace := s.trace ++ [.accepted (Memory.slice s.buf k (s.txlen - k))] }

/-- R167: `service` returns in exactly two situations, S.RX.NODATA and S.TX.STALL; every other micro-step
continues the loop. R168, R272: `service` need not return: while the peer sends without an end and no write is
refused, a call is still going on after any number of micro-steps. That the endless answers stand in State as a
sequence is the model's choice (log entry 13). -/
def Obligations.ServiceReturnsOnlyOnStall : Prop :=
  (∀ s t : State, s.schedule = [] → step s = .next t →
    (t.serving = false ↔ (fetch s).1 = .sRxNodata ∨ (fetch s).1 = .sTxStall)) ∧
  ∀ (s : State) (n : Nat), Inv s → s.processorKeepsContract → s.fedWithoutEnd → s.neverRefused → 0 < n →
    ∃ t, service n s = .next t ∧ t.serving = true

/-- R65, the half-duplex interlock: while a response is pending a step of the engine reads no byte and runs no
parser operation: only the cursor, the transmitted bytes and the transport's write side change. -/
def Obligations.HalfDuplexInterlock : Prop :=
  ∀ (s t : State) (k : Nat), s.schedule = [] → s.txc = some k → step s = .next t →
    t = { s with txc := t.txc, wr := t.wr, serving := t.serving, trace := t.trace } ∧
      t.consumedBytes = s.consumedBytes

/-! ## Construction (spec/70_reset_and_hazards.md) and the state after reset -/

/-- R250, RESET with a valid `CAPACITY` between `service` calls: `ST = START`, `TXC = IDLE`, no transport
operation and no Processor call; the Transport and the Processor are those bound. That `none` keeps those of the
instance replaced is the model's choice (log entry 12). -/
def Obligations.ConstructionGivesIdleInstance : Prop :=
  ∀ (s : State) (c : Nat) (binding : Option Binding), 8 ≤ c → c ≤ 65541 → s.serving = false →
    ∃ t, exec (.reset c binding) s = .next t ∧ t.capacity = c ∧ t.maxp = c - 6 ∧ t.st = .start ∧ t.txc = none ∧
      t.trace = s.trace ∧ t.schedule = s.schedule ∧ t.serving = false ∧
      (binding = none → t.rx = s.rx ∧ t.rxAfter = s.rxAfter ∧ t.wr = s.wr ∧ t.wrAfter = s.wrAfter ∧ t.proc = s.proc ∧
        t.procState = s.procState) ∧
      (∀ g, binding = some g → t.rx = g.rx ∧ t.rxAfter = g.rxAfter ∧ t.wr = g.wr ∧ t.wrAfter = g.wrAfter ∧
        t.proc = g.proc ∧
        t.procState = g.procState) ∧
      Memory.wf t.buf = true ∧ ∀ a ∈ t.buf, a.1 < c

/-- R251: construction refuses every `CAPACITY` outside `8 .. 65541`. -/
def Obligations.InvalidCapacityRefused : Prop :=
  ∀ (s : State) (c : Nat) (binding : Option Binding), c < 8 ∨ 65541 < c →
    exec (.reset c binding) s = .refused .invalidCapacity

/-- R252: a later construction may be done only between `service` calls. That the model refuses it inside one is
its own choice (log entry 12). -/
def Obligations.NoConstructionDuringService : Prop :=
  ∀ (s : State) (c : Nat) (binding : Option Binding) (t : State), s.serving = true →
    exec (.reset c binding) s ≠ .next t

/-- R37: after construction the parser waits for a START byte and the cursor is `IDLE`; the mode is RECEIVE.
`CAPACITY` 16 and the zeros of the other registers are the model's choice (log entries 2 and 3). -/
def Obligations.ResetIsIdleReceive : Prop :=
  State.reset.st = .start ∧ State.reset.txc = none ∧ State.reset.mode = .receive ∧
    State.reset.trace = [] ∧ capacityValid State.reset.capacity = true

/-! ## Wire frames (spec/30_encoding.md) -/

/-- R80, R87, R95: a request frame joins the receive stream as its bytes, in order; the engine's state and `BUF`
do not change. The transaction form is the model's choice (log entry 10). -/
def Obligations.RequestJoinsReceiveStream : Prop :=
  ∀ (s : State) (seq : Byte) (p : List Byte), p.length < 65536 →
    exec (.frameReq seq p) s = .next { s with rx := s.rx ++ (frameBytes seq p).map .byte }

/-- R87: a pending response, none of it accepted yet, goes whole into the transmit stream, and the mode returns
to RECEIVE; `BUF` does not change. The transaction form is the model's choice (log entry 10). -/
def Obligations.ResponseJoinsTransmitStream : Prop :=
  ∀ (s : State) (seq : Byte) (p : List Byte), s.txc = some 0 → s.txlen = p.length + 6 → s.txlen ≤ s.capacity →
    Memory.slice s.buf 0 s.txlen = frameBytes seq p →
    exec (.frameRsp seq p) s = .next { s with
      txc := none, serving := true, trace := s.trace ++ [.accepted (frameBytes seq p)] }

/-- R88: the pending error response `1B ss 00 02 0E B0 C1 (66 xor ss)`, none of it accepted yet, goes whole into
the transmit stream. The transaction form is the model's choice (log entry 10). -/
def Obligations.ErrorResponseJoinsTransmitStream : Prop :=
  ∀ (s : State) (seq : Byte), s.txc = some 0 → s.txlen = 8 → s.txlen ≤ s.capacity →
    Memory.slice s.buf 0 8 = [0x1B, seq, 0x00, 0x02, 0x0E, 0xB0, 0xC1, 0x66 ^^^ seq] →
    exec (.frameErr seq) s = .next { s with
      txc := none, serving := true
      trace := s.trace ++ [.accepted [0x1B, seq, 0x00, 0x02, 0x0E, 0xB0, 0xC1, 0x66 ^^^ seq]] }

/-- R80 with R85 and R141: a byte sequence is a frame exactly when it has the sentinels at offsets 0 and 4, the
big-endian length of its payload at offsets 2 and 3, and the XOR of all its bytes is zero. -/
def Obligations.FrameFormatIsExact : Prop :=
  ∀ (f : List Byte) (seq : Byte) (p : List Byte),
    decodeFrame f = .ok (seq, p) ↔
      p.length < 65536 ∧ f.length = p.length + 6 ∧ f.take 5 = frameHeader seq p.length ∧
        (f.drop 5).take p.length = p ∧ xorAll f = 0

/-- R208, the residue: changing any one byte of a frame to another value makes the XOR of all its bytes nonzero.
That such a frame is answered by the error response holds only where it still parses to its end (a changed SEQ,
payload or checksum byte, see WrongChecksumByteAnswered, which is for every SEQ, payload and wrong checksum byte);
R208 denies it of a changed START, TOKEN or LEN byte. -/
def Obligations.SingleByteErrorLeavesResidue : Prop :=
  ∀ (seq : Byte) (p : List Byte) (i : Nat) (h : i < (frameBytes seq p).length) (b : Byte),
    b ≠ (frameBytes seq p)[i] → xorAll ((frameBytes seq p).set i b) ≠ 0

/-! ## Encoding -/

/-- A received byte: the parser word of the state and the byte decodes to an operation, and the step is that
operation, after the byte has been taken from the transport and observed, inside a `service` call. The byte is the
next one listed or, with none listed, the next of the endless sequence after the list. The guard bit of the word is
the model's choice (log entry 8). -/
def Obligations.StepRunsDecodedOperation : Prop :=
  ∀ (s : State) (b : Byte) (w : List Byte) (i : Instr), s.schedule = [] → s.txc = none →
    keyOf s b = some w → decode .parser w = .ok i →
    (∀ rest, s.rx = .byte b :: rest →
      step s = exec i { s with rx := rest, serving := true, trace := s.trace ++ [.consumed b] }) ∧
    (s.rx = [] → tailAnswer s.rxAfter = .byte b →
      step s = exec i { s with
        rxAfter := tailNext s.rxAfter, serving := true, trace := s.trace ++ [.consumed b] })

/-- Every other step: the agent whose turn it is and the transport's answer name the operation, and the step is
that operation on the state with the turn and the answer taken. Turns and limits as scripts are the model's choice
(log entry 13). -/
def Obligations.StepRunsFetchedOperation : Prop :=
  ∀ s : State,
    (∀ rest, s.schedule = .framer :: rest → step s = microStep { s with schedule := rest }) ∧
    (s.schedule = [] → step s = microStep s) ∧
    (∀ seq p rest, s.schedule = .peerSends seq p :: rest →
      step s = exec (.frameReq seq p) { s with schedule := rest }) ∧
    (∀ c g rest, s.schedule = .construct c g :: rest →
      step s = exec (.reset c g) { s with schedule := rest }) ∧
    (s.schedule = [] → s.txc = none → s.rx = [] → s.rxAfter = .silent → step s = exec .sRxNodata s) ∧
    (s.schedule = [] → s.txc = none → s.rx = [] → tailAnswer s.rxAfter = .noData →
      step s = exec .sRxNodata { s with rxAfter := tailNext s.rxAfter }) ∧
    (∀ rest, s.schedule = [] → s.txc = none → s.rx = .noData :: rest →
      step s = exec .sRxNodata { s with rx := rest }) ∧
    (∀ k m rest, s.schedule = [] → s.txc = some k → k < s.txlen → s.wr = m :: rest →
      step s = exec (if s.txlen - k ≤ m then .sTxDone else if m = 0 then .sTxStall else .sTxPart m)
        { s with wr := rest }) ∧
    (∀ k m, s.schedule = [] → s.txc = some k → k < s.txlen → s.wr = [] → s.wrAfter = some m →
      step s = exec (if s.txlen - k ≤ m then .sTxDone else if m = 0 then .sTxStall else .sTxPart m) s) ∧
    (∀ k, s.schedule = [] → s.txc = some k → s.wr = [] → s.wrAfter = none → step s = exec .sTxDone s)

/-- Decode and encode agree: the word of a well-formed operation decodes to that operation, every operand at
every value. The words are the model's own where the spec has none: R90 to R92 give the parser, dispatch and driver
keys as labels, and D.ARM and RESET no key at all; the guard bit, the operand bytes and the words of D.RESP, D.ARM
and RESET are log entry 8, and that the frame `FRAME(seq; B0 C1)` is written FRAME.ERR, never FRAME.RSP, is log
entry 9. -/
def Obligations.DecodeInvertsEncode : Prop :=
  ∀ (i : Instr) (f : Format) (w : List Byte), i.wellFormed = true → encode i = some (f, w) → decode f w = .ok i

/-- Every parser word of the model has one meaning: what decodes is well formed and encodes to the same word. The
word is the key of R91 with a guard bit, which is the model's choice (log entry 8): by the key alone the keys
`3xx`, `5xx` and `6xx` have two rows each, which R91 tells apart by a data-dependent guard. -/
def Obligations.EncodeInvertsDecode : Prop :=
  ∀ (w : List Byte) (i : Instr), decode .parser w = .ok i →
    i.wellFormed = true ∧ encode i = some (.parser, w)

/-- A few keys and frames of spec/30_encoding.md decode to their operations. The parser and driver keys and the
frame are the spec's bits (R90 to R92, R80); the three-byte dispatch word around the key `10` of D.CALL, and the
reading of a table word by its number of bits, are the model's choice (log entry 8). -/
def Obligations.SpecWordsDecode : Prop :=
  decodeTableWord 16 0x01B = some .pSync ∧ decodeTableWord 16 0x10E = some (.pSeq 0x0E) ∧
    decodeTableWord 16 0x40E = some .pToken ∧ decodeTableWord 16 0x700 = none ∧
    decode .dispatch [0x02, 0x00, 0x00] = .ok .dCall ∧ decodeTableWord 8 0x06 = some .sTxDone ∧
    decode .rxFrame [0x1B, 0x05, 0x00, 0x01, 0x0E, 0x7F, 0x6E] = .ok (.frameReq 0x05 [0x7F])

/-! ## Whole-machine rules -/

/-- R38: every step keeps the invariants I1 to I8, whoever moves. -/
def Obligations.InvariantsKeptByEveryStep : Prop :=
  ∀ s t : State, Inv s → step s = .next t → Inv t

/-- The invariants hold right after reset, whatever the environment will do. -/
def Obligations.InvariantsHoldAtReset : Prop :=
  ∀ (rx : List RxAnswer) (rxAfter : RxTail) (wr : List Nat) (wrAfter : Option Nat) (proc : List ProcCase) (ps : Nat)
      (turns : List Turn),
    Inv { State.reset with
      rx := rx, rxAfter := rxAfter, wr := wr, wrAfter := wrAfter, proc := proc, procState := ps, schedule := turns }

/-- R209: from a state with the invariants no step accesses `BUF` outside `0 .. CAPACITY-1`. -/
def Obligations.NoAccessOutsideBuffer : Prop :=
  ∀ s : State, Inv s → step s ≠ .fault .bufOffset

/-- R220: no step of the engine stops, in any state with the invariants and for any transport, while the
Processor keeps its contract. -/
def Obligations.EngineNeverStops : Prop :=
  ∀ s : State, Inv s → s.schedule = [] → s.processorKeepsContract → ∃ t, step s = .next t

/-- R23: `SEQ` is written by P.SEQ alone (and is unspecified after construction). -/
def Obligations.SeqWrittenOnlyByPSeq : Prop :=
  ∀ (i : Instr) (s t : State), exec i s = .next t → t.seq ≠ s.seq →
    (∃ b, i = .pSeq b ∧ t.seq = b) ∨ (∃ b, i = .sRxByte b ∧ s.st = .waitSeq ∧ t.seq = b) ∨ ∃ c g, i = .reset c g

/-- R20: no operation but construction writes `CAPACITY`. -/
def Obligations.CapacityWrittenOnlyByConstruction : Prop :=
  ∀ (i : Instr) (s t : State), exec i s = .next t → t.capacity ≠ s.capacity → ∃ g, i = .reset t.capacity g

/-- R152: a step arms a response only by consuming a byte in state WAIT_CKSUM, and then from the start of a frame
in state START. -/
def Obligations.ResponseArmedOnlyByChecksumByte : Prop :=
  ∀ (s t : State) (k : Nat), s.txc = none → step s = .next t → t.txc = some k →
    s.st = .waitCksum ∧ t.st = .start ∧ k = 0 ∧ ∃ b, (fetch s).1 = .sRxByte b

/-- R235: TRANSMIT mode is left only by S.TX.DONE; a construction puts another instance in its place. -/
def Obligations.TransmitModeLeftOnlyWhenDrained : Prop :=
  ∀ (s t : State) (k : Nat), s.txc = some k → step s = .next t → t.txc = none →
    (fetch s).1 = .sTxDone ∨ ∃ c g, (fetch s).1 = .reset c g

/-- R142: the Processor is called only for a frame whose checksum is good, on the byte consumed in state
WAIT_CKSUM: a step among whose new events is an invocation, wherever it stands, consumed that byte and made that
one invocation and nothing else. -/
def Obligations.ProcessorCalledOnlyForGoodFrames : Prop :=
  ∀ (s t : State) (p resp : List Byte) (r : Nat), step s = .next t →
    Event.called p r resp ∈ t.trace.drop s.trace.length →
    s.st = .waitCksum ∧ s.txc = none ∧ (fetch s).1 = .sRxByte s.ck ∧ p = s.payload ∧
      t.trace = s.trace ++ [.consumed s.ck, .called p r resp]

/-- R210: from a state with the invariants, `MAXP + 5` further input bytes bring the parser back to START at the
latest; with no input it stays where it is. -/
def Obligations.ParserReturnsToStart : Prop :=
  ∀ (s u : State) (bytes : List Byte), Inv s → s.txc = none → s.schedule = [] →
    s.processorKeepsContract →
    (bytes.length = s.maxp + 5 → s.handsOver bytes u →
      ∃ n t, n ≤ s.maxp + 5 ∧ run n s = .next t ∧ t.st = .start ∧
        t.consumedBytes = s.consumedBytes ++ bytes.take n) ∧
    (s.rxAnswer = .noData →
      step s = .next { s with rx := s.afterRead.rx, rxAfter := s.afterRead.rxAfter, serving := false })

/-- R213: no operation reads a register that is not meaningful (R30): states that differ in such registers alone
take the same steps, see the same events, and differ in such registers alone afterwards. -/
def Obligations.DeadRegistersAreNeverRead : Prop :=
  ∀ s t : State, SameButDead s t → SameOutcome SameButDead (step s) (step t)

/-- R201: how the receive bytes are cut by `NoData` answers, and so among `service` calls, does not matter: each
step on one feeding is matched by steps on any other feeding of the same bytes, with the same registers, buffer,
Processor invocations and transmitted bytes. -/
def Obligations.FeedingGranularityDoesNotMatter : Prop :=
  ∀ s s' t : State, s.schedule = [] → SameStream s t → step s = .next s' →
    ∃ n t', run n t = .next t' ∧ SameStream s' t' ∧ s'.trace = t'.trace

/-! ## The source's properties (spec/44_properties.md) -/

/-- R200: a valid frame, consumed from idle, performs the operations of its path, makes exactly one Processor
invocation with its payload, and if the answer is positive arms the framed response with the same SEQ. The answer
is the Processor's own: that of its cases (the same as before the frame) to the state `u` before the checksum byte,
in which the payload stands in `BUF`. -/
def Obligations.ValidFrameRoundTrip : Prop :=
  ∀ (s v : State) (seq : Byte) (p : List Byte), Inv s → s.idle → s.schedule = [] →
    s.processorKeepsContract → 1 ≤ p.length → p.length ≤ s.maxp → s.handsOver (frameBytes seq p) v →
    ∃ u t a, run (p.length + 5) s = .next u ∧ u.payload = p ∧ u.proc = s.proc ∧ u.procState = s.procState ∧
      u.answeredBy a ∧ run (p.length + 6) s = .next t ∧
      operations (p.length + 6) s =
        [.pSync, .pSeq seq, .pLenh (lengthHi p.length), .pLenl (lengthLo p.length), .pToken] ++
          p.dropLast.map .pData ++ (p.getLast?.map Instr.pDataLast).toList ++
          [.pCksumOk (xorAll (frameBody seq p))] ∧
      a.length ≤ s.maxp ∧ t.rx = v.rx ∧ t.rxAfter = v.rxAfter ∧ t.st = .start ∧ t.procState = a.next.getD s.procState ∧
      t.trace = s.trace ++ (frameBytes seq p).map .consumed ++ [.called p a.length
        (Memory.slice (Memory.writeCells u.buf 5 a.writes) 5 a.length)] ∧
      (0 < a.length → t.txc = some 0 ∧ t.txlen = a.length + 6 ∧
        t.offered 0 = frameBytes seq (Memory.slice (Memory.writeCells u.buf 5 a.writes) 5 a.length)) ∧
      (a.length = 0 → t.idle)

/-- R202: the same frame with any wrong checksum byte ends in P.CKSUM.ERR with the residue in `CK xor b`, makes
no Processor invocation, and arms `ERRFRAME(seq)`. -/
def Obligations.WrongChecksumByteAnswered : Prop :=
  ∀ (s v : State) (seq : Byte) (p : List Byte) (c : Byte), Inv s → s.idle → s.schedule = [] →
    1 ≤ p.length → p.length ≤ s.maxp → c ≠ xorAll (frameBody seq p) →
    s.handsOver (frameBody seq p ++ [c]) v →
    ∃ u t, run (p.length + 5) s = .next u ∧ u.st = .waitCksum ∧ u.ck ^^^ c = xorAll (frameBody seq p) ^^^ c ∧
      operations 1 u = [.pCksumErr c] ∧ run (p.length + 6) s = .next t ∧ t.st = .start ∧
      t.rx = v.rx ∧ t.rxAfter = v.rxAfter ∧
      t.trace = s.trace ++ (frameBody seq p ++ [c]).map .consumed ∧ t.txc = some 0 ∧ t.txlen = 8 ∧
      t.offered 0 = [0x1B, seq, 0x00, 0x02, 0x0E, 0xB0, 0xC1, 0x66 ^^^ seq]

/-- R203: a zero-length frame is dropped at its fourth byte; its token byte is skipped and its checksum byte
`0x15 xor ss` is skipped too, unless it is 0x1B and starts a new frame. -/
def Obligations.ZeroLengthFrameDropped : Prop :=
  ∀ (s v : State) (seq : Byte), s.idle → s.schedule = [] →
    s.handsOver [0x1B, seq, 0x00, 0x00, 0x0E, 0x15 ^^^ seq] v →
    (∃ t, run 4 s = .next t ∧ t.idle ∧ t.buf = s.buf ∧
      t.trace = s.trace ++ [.consumed 0x1B, .consumed seq, .consumed 0x00, .consumed 0x00]) ∧
    operations 6 s = [.pSync, .pSeq seq, .pLenh 0x00, .pLenlDrop 0x00, .pSkip 0x0E] ++
      (if seq = 0x0E then [.pSync] else [.pSkip (0x15 ^^^ seq)])

/-- R204: an oversize length drops the frame; every following byte other than 0x1B is ignored and the first
following 0x1B starts a frame, wherever it stands. -/
def Obligations.OversizeFrameResynchronises : Prop :=
  ∀ (s v : State) (seq hi lo : Byte) (noise : List Byte), s.idle → s.schedule = [] →
    s.maxp < 256 * hi.toNat + lo.toNat → (∀ b ∈ noise, b ≠ 0x1B) →
    s.handsOver ([0x1B, seq, hi, lo] ++ noise ++ [0x1B]) v →
    (∃ u, run (noise.length + 4) s = .next u ∧ u.idle ∧
      u.trace = s.trace ++ ([0x1B, seq, hi, lo] ++ noise).map .consumed) ∧
    ∃ t, run (noise.length + 5) s = .next t ∧ t.st = .waitSeq ∧ t.ck = 0x1B ∧ t.txc = none ∧ t.buf = s.buf ∧
      operations (noise.length + 5) s =
        [.pSync, .pSeq seq, .pLenh hi, .pLenlDrop lo] ++ noise.map .pSkip ++ [.pSync] ∧
      t.trace = s.trace ++ ([0x1B, seq, hi, lo] ++ noise ++ [0x1B]).map .consumed

/-- R205: whatever the transport accepts write by write, the cursor is the sum of it and the transmitted bytes
are the frame's, each once and in order; when the sum reaches `TXLEN` the mode returns to RECEIVE; until then no
byte is read and no parser operation runs. -/
def Obligations.TransmittedExactlyOnce : Prop :=
  ∀ (s : State) (k : Nat) (limits more : List Nat), s.schedule = [] → s.txc = some k → k < s.txlen →
    s.txlen ≤ s.capacity → s.wr = limits ++ more →
    (k + limits.sum < s.txlen → ∃ t, run limits.length s = .next t ∧ t.txc = some (k + limits.sum) ∧
      t.transmitted = s.transmitted ++ Memory.slice s.buf k limits.sum ∧
      t.consumedBytes = s.consumedBytes ∧
      t = { s with txc := t.txc, wr := more, serving := t.serving, trace := t.trace }) ∧
    (∀ init last, limits = init ++ [last] → k + init.sum < s.txlen → s.txlen ≤ k + limits.sum →
      ∃ t, run limits.length s = .next t ∧ t.txc = none ∧
        t.transmitted = s.transmitted ++ Memory.slice s.buf k (s.txlen - k) ∧
        t.consumedBytes = s.consumedBytes ∧
        t = { s with txc := none, wr := more, serving := true, trace := t.trace })
end

