-- ==== Sys2Proof/Laws/Memory.lean ====
section
/-! SUPPORT. `BUF` as a memory: reads after writes, slices, the canonical form that every memory operation
keeps, and that equal contents are equal lists. -/

namespace Sys2Proof.Machine

@[simp] theorem read_nil (a : Nat) : Memory.read [] a = Memory.unlisted := rfl

theorem read_cons (x : Nat) (v : Byte) (m : Memory) (a : Nat) :
    Memory.read ((x, v) :: m) a = if x = a then v else Memory.read m a := rfl

/-- A list all of whose cells lie above `a` reads as unlisted at and below `a`. -/
theorem read_below {m : Memory} {lo a : Nat} (h : Memory.risingFrom (some lo) m = true) (ha : a ≤ lo) :
    Memory.read m a = Memory.unlisted := by
  induction m generalizing lo with
  | nil => rfl
  | cons c rest ih =>
    obtain ⟨x, v⟩ := c
    simp only [Memory.risingFrom, Bool.and_eq_true, decide_eq_true_eq] at h
    rw [read_cons, if_neg (by omega), ih h.2 (by omega)]

theorem risingFrom_mono {m : Memory} {lo lo' : Option Nat} (h : Memory.risingFrom lo m = true)
    (hle : ∀ a, lo' = some a → ∃ b, lo = some b ∧ a ≤ b) : Memory.risingFrom lo' m = true := by
  cases m with
  | nil => cases lo' <;> rfl
  | cons c rest =>
    obtain ⟨x, v⟩ := c
    cases lo' with
    | none =>
      simp only [Memory.risingFrom, Bool.and_eq_true] at h ⊢
      exact ⟨⟨trivial, h.1.2⟩, h.2⟩
    | some a =>
      obtain ⟨b, rfl, hb⟩ := hle a rfl
      simp only [Memory.risingFrom, Bool.and_eq_true, decide_eq_true_eq] at h ⊢
      exact ⟨⟨by omega, h.1.2⟩, h.2⟩

theorem risingFrom_cons {m : Memory} {lo : Option Nat} {a : Nat} {v : Byte}
    (hlo : ∀ b, lo = some b → b < a) (h : Memory.risingFrom (some a) m = true) :
    Memory.risingFrom lo (Memory.cons a v m) = true := by
  unfold Memory.cons
  split
  · exact risingFrom_mono h fun b hb => ⟨a, rfl, by have := hlo b hb; omega⟩
  · rename_i hv
    cases lo with
    | none => simp [Memory.risingFrom, hv, h]
    | some b => simp [Memory.risingFrom, hv, h, hlo b rfl]

/-- A write keeps the canonical form, above any lower bound of the cells and of the address. -/
theorem risingFrom_write {m : Memory} {lo : Option Nat} {a : Nat} {v : Byte}
    (h : Memory.risingFrom lo m = true) (hlo : ∀ b, lo = some b → b < a) :
    Memory.risingFrom lo (Memory.write m a v) = true := by
  induction m generalizing lo with
  | nil => exact risingFrom_cons hlo rfl
  | cons c rest ih =>
    obtain ⟨x, w⟩ := c
    have hx : Memory.risingFrom (some x) rest = true ∧ w ≠ Memory.unlisted := by
      cases lo <;> simp_all [Memory.risingFrom]
    simp only [Memory.write]
    split
    · rename_i hlt
      exact risingFrom_cons hlo (by simp [Memory.risingFrom, hlt, hx.1, hx.2])
    · split
      · rename_i _ heq
        exact risingFrom_cons hlo (heq ▸ hx.1)
      · have := ih hx.1 (fun b hb => by injection hb with hb; omega)
        cases lo <;> simp_all [Memory.risingFrom]

/-- Every memory operation keeps the canonical form: a single write. -/
theorem wf_write {m : Memory} (h : Memory.wf m = true) (a : Nat) (v : Byte) :
    Memory.wf (Memory.write m a v) = true :=
  risingFrom_write h (by simp)

theorem read_consCell {m : Memory} {a : Nat} (h : Memory.risingFrom (some a) m = true) (v : Byte) (b : Nat) :
    Memory.read (Memory.cons a v m) b = if b = a then v else Memory.read m b := by
  unfold Memory.cons
  split
  · rename_i hv
    split
    · rename_i hb
      rw [hb, read_below h le_rfl, hv]
    · rfl
  · rw [read_cons]
    by_cases hb : a = b
    · simp [hb]
    · simp [hb, Ne.symm hb]

theorem read_write_rising {m : Memory} {lo : Option Nat} (h : Memory.risingFrom lo m = true) (a : Nat)
    (v : Byte) (b : Nat) : Memory.read (Memory.write m a v) b = if b = a then v else Memory.read m b := by
  induction m generalizing lo with
  | nil => exact read_consCell rfl v b
  | cons c rest ih =>
    obtain ⟨x, w⟩ := c
    have hx : Memory.risingFrom (some x) rest = true ∧ w ≠ Memory.unlisted := by
      cases lo <;> simp_all [Memory.risingFrom]
    simp only [Memory.write]
    split
    · rename_i hlt
      exact read_consCell (by simp [Memory.risingFrom, hlt, hx.1, hx.2]) v b
    · split
      · rename_i _ heq
        subst heq
        rw [read_consCell hx.1, read_cons]
        by_cases hb : b = a
        · simp [hb]
        · simp [hb, Ne.symm hb]
      · rename_i hlt hne
        rw [read_cons, read_cons, ih hx.1]
        by_cases hb : x = b
        · subst hb; simp [Ne.symm hne]
        · simp [hb]

/-- A read after a write: the value written there, and every other byte as before. -/
theorem read_write {m : Memory} (h : Memory.wf m = true) (a : Nat) (v : Byte) (b : Nat) :
    Memory.read (Memory.write m a v) b = if b = a then v else Memory.read m b :=
  read_write_rising h a v b

/-- The addresses listed after a write are those listed before and the one written. -/
theorem mem_write {m : Memory} {a : Nat} {v : Byte} {c : Host.Cell} (h : c ∈ Memory.write m a v) :
    c ∈ m ∨ c.1 = a := by
  have hcons : ∀ {rest : Memory}, c ∈ Memory.cons a v rest → c ∈ rest ∨ c.1 = a := by
    intro rest hc
    unfold Memory.cons at hc
    split at hc
    · exact .inl hc
    · rcases List.mem_cons.1 hc with rfl | hc
      · exact .inr rfl
      · exact .inl hc
  induction m with
  | nil => exact hcons h
  | cons d rest ih =>
    obtain ⟨x, w⟩ := d
    simp only [Memory.write] at h
    split at h
    · exact hcons h
    · split at h
      · exact (hcons h).imp_left (List.mem_cons_of_mem _)
      · rcases List.mem_cons.1 h with rfl | h
        · exact .inl (List.mem_cons_self ..)
        · exact (ih h).imp_left (List.mem_cons_of_mem _)

theorem wf_writeBytes {m : Memory} (h : Memory.wf m = true) (a : Nat) (bs : List Byte) :
    Memory.wf (Memory.writeBytes m a bs) = true := by
  induction bs generalizing m a with
  | nil => exact h
  | cons v rest ih => exact ih (wf_write h a v) (a + 1)

theorem wf_writeCells {m : Memory} (h : Memory.wf m = true) (base : Nat) (cs : List Host.Cell) :
    Memory.wf (Memory.writeCells m base cs) = true := by
  induction cs generalizing m with
  | nil => exact h
  | cons c rest ih => exact ih (wf_write h _ _)

theorem wf_unspecified (k n : Nat) : Memory.wf (Memory.unspecified k n) = true := by
  induction n with
  | zero => rfl
  | succ n ih => exact wf_write ih _ _

/-- A fresh buffer holds the unspecified bytes of its construction, and nothing outside it. -/
theorem read_unspecified (k n a : Nat) :
    Memory.read (Memory.unspecified k n) a = if a < n then Config.resetBuf k a else Memory.unlisted := by
  induction n with
  | zero => rfl
  | succ n ih =>
    rw [Memory.unspecified, read_write (wf_unspecified k n), ih]
    by_cases h : a = n
    · simp [h]
    · have : a < n + 1 ↔ a < n := by omega
      simp [h, this]

theorem mem_writeBytes {m : Memory} {a : Nat} {bs : List Byte} {c : Host.Cell}
    (h : c ∈ Memory.writeBytes m a bs) : c ∈ m ∨ a ≤ c.1 ∧ c.1 < a + bs.length := by
  induction bs generalizing m a with
  | nil => exact .inl h
  | cons v rest ih =>
    rcases ih h with h | ⟨h1, h2⟩
    · rcases mem_write h with h | h
      · exact .inl h
      · exact .inr (by simp; omega)
    · exact .inr (by simp; omega)

theorem mem_writeCells {m : Memory} {base : Nat} {cs : List Host.Cell} {c : Host.Cell}
    (h : c ∈ Memory.writeCells m base cs) : c ∈ m ∨ ∃ d ∈ cs, c.1 = base + d.1 := by
  induction cs generalizing m with
  | nil => exact .inl h
  | cons d rest ih =>
    rcases ih h with h | ⟨e, he, h⟩
    · rcases mem_write h with h | h
      · exact .inl h
      · exact .inr ⟨d, List.mem_cons_self .., h⟩
    · exact .inr ⟨e, List.mem_cons_of_mem _ he, h⟩

theorem mem_unspecified {k n : Nat} {c : Host.Cell} (h : c ∈ Memory.unspecified k n) : c.1 < n := by
  induction n with
  | zero => exact absurd h (by simp [Memory.unspecified])
  | succ n ih =>
    rcases mem_write h with h | h
    · have := ih h; omega
    · omega

/-- A run of bytes written from `a` reads back as itself; every other byte is as before. -/
theorem read_writeBytes {m : Memory} (h : Memory.wf m = true) (a : Nat) (bs : List Byte) (b : Nat) :
    Memory.read (Memory.writeBytes m a bs) b =
      if a ≤ b ∧ b < a + bs.length then bs.getD (b - a) 0 else Memory.read m b := by
  induction bs generalizing m a with
  | nil =>
    have : ¬ (a ≤ b ∧ b < a + ([] : List Byte).length) := by simp
    rw [if_neg this]; rfl
  | cons v rest ih =>
    rw [Memory.writeBytes, ih (wf_write h a v), read_write h]
    by_cases hb : b = a
    · subst hb
      rw [if_neg (by omega), if_pos rfl, if_pos (by simp)]
      simp
    · rw [if_neg hb]
      by_cases hlt : a + 1 ≤ b ∧ b < a + 1 + rest.length
      · rw [if_pos hlt, if_pos (by simp; omega)]
        obtain ⟨k, rfl⟩ : ∃ k, b = a + 1 + k := ⟨b - (a + 1), by omega⟩
        have h1 : a + 1 + k - (a + 1) = k := by omega
        have h2 : a + 1 + k - a = k + 1 := by omega
        rw [h1, h2]; simp
      · rw [if_neg hlt, if_neg (by simp; omega)]

/-- Bytes outside the cells' offsets are as before. -/
theorem read_writeCells_of_ne {m : Memory} (h : Memory.wf m = true) {base : Nat} {cs : List Host.Cell} {b : Nat}
    (hb : ∀ c ∈ cs, b ≠ base + c.1) : Memory.read (Memory.writeCells m base cs) b = Memory.read m b := by
  induction cs generalizing m with
  | nil => rfl
  | cons c rest ih =>
    rw [Memory.writeCells, ih (wf_write h _ _) (fun d hd => hb d (List.mem_cons_of_mem _ hd)), read_write h,
      if_neg (hb c (List.mem_cons_self ..))]

/-- The last byte written to an offset stands there. -/
theorem read_writeCells_last {m : Memory} (h : Memory.wf m = true) {base : Nat} (before : List Host.Cell)
    {c : Host.Cell} {after : List Host.Cell} (hc : ∀ x ∈ after, x.1 ≠ c.1) :
    Memory.read (Memory.writeCells m base (before ++ c :: after)) (base + c.1) = c.2 := by
  induction before generalizing m with
  | nil =>
    rw [List.nil_append, Memory.writeCells,
      read_writeCells_of_ne (wf_write h _ _) (fun x hx => by have := hc x hx; omega), read_write h, if_pos rfl]
  | cons d rest ih => exact ih (wf_write h _ _)

@[simp] theorem slice_length (m : Memory) (a n : Nat) : (Memory.slice m a n).length = n := by
  induction n generalizing a with
  | zero => rfl
  | succ n ih => simp [Memory.slice, ih]

/-- Slices are equal when their bytes are. -/
theorem slice_congr {m m' : Memory} {a n : Nat}
    (h : ∀ i, a ≤ i → i < a + n → Memory.read m i = Memory.read m' i) :
    Memory.slice m a n = Memory.slice m' a n := by
  induction n generalizing a with
  | zero => rfl
  | succ n ih =>
    rw [Memory.slice, Memory.slice, h a le_rfl (by omega), ih fun i h1 h2 => h i (by omega) (by omega)]

theorem slice_append (m : Memory) (a n k : Nat) :
    Memory.slice m a (n + k) = Memory.slice m a n ++ Memory.slice m (a + n) k := by
  induction n generalizing a with
  | zero => simp [Memory.slice]
  | succ n ih =>
    rw [Nat.add_right_comm, Memory.slice, Memory.slice, ih]
    simp [Nat.add_assoc, Nat.add_comm 1 n]

theorem slice_succ (m : Memory) (a n : Nat) :
    Memory.slice m a (n + 1) = Memory.slice m a n ++ [Memory.read m (a + n)] := by
  rw [slice_append]; rfl

/-- A slice of bytes just written is those bytes. -/
theorem slice_writeBytes {m : Memory} (h : Memory.wf m = true) (a : Nat) (bs : List Byte) :
    Memory.slice (Memory.writeBytes m a bs) a bs.length = bs := by
  induction bs generalizing m a with
  | nil => rfl
  | cons v rest ih =>
    rw [Memory.writeBytes, List.length_cons, Memory.slice, ih (wf_write h a v)]
    rw [read_writeBytes (wf_write h a v), if_neg (by omega), read_write h, if_pos rfl]

theorem read_eq_of_ext {m m' : Memory} {lo : Option Nat} (h : Memory.risingFrom lo m = true)
    (h' : Memory.risingFrom lo m' = true) (he : ∀ a, Memory.read m a = Memory.read m' a) : m = m' := by
  induction m generalizing lo m' with
  | nil =>
    cases m' with
    | nil => rfl
    | cons c rest =>
      obtain ⟨x, v⟩ := c
      have hv : v ≠ Memory.unlisted := by cases lo <;> simp_all [Memory.risingFrom]
      exact absurd (by simpa [read_cons] using (he x).symm) hv
  | cons c rest ih =>
    obtain ⟨x, v⟩ := c
    have hx : Memory.risingFrom (some x) rest = true ∧ v ≠ Memory.unlisted := by
      cases lo <;> simp_all [Memory.risingFrom]
    cases m' with
    | nil => exact absurd (by simpa [read_cons] using he x) hx.2
    | cons c' rest' =>
      obtain ⟨x', v'⟩ := c'
      have hx' : Memory.risingFrom (some x') rest' = true ∧ v' ≠ Memory.unlisted := by
        cases lo <;> simp_all [Memory.risingFrom]
      have hxx : x = x' := by
        by_contra hne
        rcases Nat.lt_or_gt_of_ne hne with hlt | hgt
        · refine hx.2 ?_
          have := he x
          rwa [read_cons, if_pos rfl, read_cons, if_neg (by omega), read_below hx'.1 hlt.le] at this
        · refine hx'.2 ?_
          have := he x'
          rw [read_cons, if_neg (by omega), read_cons, if_pos rfl, read_below hx.1 hgt.le] at this
          exact this.symm
      subst hxx
      have hvv : v = v' := by simpa [read_cons] using he x
      subst hvv
      congr 1
      refine ih hx.1 hx'.1 fun a => ?_
      by_cases hle : a ≤ x
      · rw [read_below hx.1 hle, read_below hx'.1 hle]
      · have := he a
        rwa [read_cons, read_cons, if_neg (by omega), if_neg (by omega)] at this

/-- Equal memories are equal data: canonical memories that read the same are the same list. -/
theorem memory_ext {m m' : Memory} (h : Memory.wf m = true) (h' : Memory.wf m' = true)
    (he : ∀ a, Memory.read m a = Memory.read m' a) : m = m' :=
  read_eq_of_ext h h' he

end Sys2Proof.Machine
end

