-- ==== Sys2Proof/Laws/State.lean ====
section
/-! SUPPORT. One lemma per field per named update of the state, true by `rfl`: a proof about an update cites
these and never unfolds it. -/

namespace Sys2Proof.Machine

section
variable (s : State) (e : Event)

@[simp] theorem observe_capacity : (s.observe e).capacity = s.capacity := rfl
@[simp] theorem observe_st : (s.observe e).st = s.st := rfl
@[simp] theorem observe_ck : (s.observe e).ck = s.ck := rfl
@[simp] theorem observe_seq : (s.observe e).seq = s.seq := rfl
@[simp] theorem observe_len : (s.observe e).len = s.len := rfl
@[simp] theorem observe_cnt : (s.observe e).cnt = s.cnt := rfl
@[simp] theorem observe_buf : (s.observe e).buf = s.buf := rfl
@[simp] theorem observe_txc : (s.observe e).txc = s.txc := rfl
@[simp] theorem observe_txlen : (s.observe e).txlen = s.txlen := rfl
@[simp] theorem observe_serving : (s.observe e).serving = s.serving := rfl
@[simp] theorem observe_rx : (s.observe e).rx = s.rx := rfl
@[simp] theorem observe_rxAfter : (s.observe e).rxAfter = s.rxAfter := rfl
@[simp] theorem observe_wr : (s.observe e).wr = s.wr := rfl
@[simp] theorem observe_wrAfter : (s.observe e).wrAfter = s.wrAfter := rfl
@[simp] theorem observe_proc : (s.observe e).proc = s.proc := rfl
@[simp] theorem observe_procState : (s.observe e).procState = s.procState := rfl
@[simp] theorem observe_schedule : (s.observe e).schedule = s.schedule := rfl
@[simp] theorem observe_constructions : (s.observe e).constructions = s.constructions := rfl
@[simp] theorem observe_trace : (s.observe e).trace = s.trace ++ [e] := rfl

end

section
variable (s : State) (b : Byte)

@[simp] theorem storePayload_capacity : (s.storePayload b).capacity = s.capacity := rfl
@[simp] theorem storePayload_st : (s.storePayload b).st = s.st := rfl
@[simp] theorem storePayload_ck : (s.storePayload b).ck = s.ck := rfl
@[simp] theorem storePayload_seq : (s.storePayload b).seq = s.seq := rfl
@[simp] theorem storePayload_len : (s.storePayload b).len = s.len := rfl
@[simp] theorem storePayload_cnt : (s.storePayload b).cnt = s.cnt + 1 := rfl
@[simp] theorem storePayload_buf : (s.storePayload b).buf = Memory.write s.buf (Config.head + s.cnt) b := rfl
@[simp] theorem storePayload_txc : (s.storePayload b).txc = s.txc := rfl
@[simp] theorem storePayload_txlen : (s.storePayload b).txlen = s.txlen := rfl
@[simp] theorem storePayload_serving : (s.storePayload b).serving = s.serving := rfl
@[simp] theorem storePayload_rx : (s.storePayload b).rx = s.rx := rfl
@[simp] theorem storePayload_rxAfter : (s.storePayload b).rxAfter = s.rxAfter := rfl
@[simp] theorem storePayload_wr : (s.storePayload b).wr = s.wr := rfl
@[simp] theorem storePayload_wrAfter : (s.storePayload b).wrAfter = s.wrAfter := rfl
@[simp] theorem storePayload_proc : (s.storePayload b).proc = s.proc := rfl
@[simp] theorem storePayload_procState : (s.storePayload b).procState = s.procState := rfl
@[simp] theorem storePayload_schedule : (s.storePayload b).schedule = s.schedule := rfl
@[simp] theorem storePayload_constructions : (s.storePayload b).constructions = s.constructions := rfl
@[simp] theorem storePayload_trace : (s.storePayload b).trace = s.trace := rfl

end

/-- `BUF` with the header of `arm_response(len)` written (R147). -/
def State.framed (s : State) (len : Nat) : Memory := Memory.writeBytes s.buf 0 (frameHeader s.seq len)

/-- The checksum that `arm_response(len)` computes (R147). -/
def State.armChecksum (s : State) (len : Nat) : Byte :=
  xorAll (Memory.slice (s.framed len) 0 (Config.head + len))

section
variable (s : State) (n : Nat)

@[simp] theorem arm_capacity : (s.arm n).capacity = s.capacity := rfl
@[simp] theorem arm_st : (s.arm n).st = s.st := rfl
@[simp] theorem arm_ck : (s.arm n).ck = s.armChecksum n := rfl
@[simp] theorem arm_seq : (s.arm n).seq = s.seq := rfl
@[simp] theorem arm_len : (s.arm n).len = s.len := rfl
@[simp] theorem arm_cnt : (s.arm n).cnt = s.cnt := rfl
@[simp] theorem arm_buf : (s.arm n).buf = Memory.write (s.framed n) (Config.head + n) (s.armChecksum n) := rfl
@[simp] theorem arm_txc : (s.arm n).txc = some 0 := rfl
@[simp] theorem arm_txlen : (s.arm n).txlen = Config.head + n + Config.tail := rfl
@[simp] theorem arm_serving : (s.arm n).serving = s.serving := rfl
@[simp] theorem arm_rx : (s.arm n).rx = s.rx := rfl
@[simp] theorem arm_rxAfter : (s.arm n).rxAfter = s.rxAfter := rfl
@[simp] theorem arm_wr : (s.arm n).wr = s.wr := rfl
@[simp] theorem arm_wrAfter : (s.arm n).wrAfter = s.wrAfter := rfl
@[simp] theorem arm_proc : (s.arm n).proc = s.proc := rfl
@[simp] theorem arm_procState : (s.arm n).procState = s.procState := rfl
@[simp] theorem arm_schedule : (s.arm n).schedule = s.schedule := rfl
@[simp] theorem arm_constructions : (s.arm n).constructions = s.constructions := rfl
@[simp] theorem arm_trace : (s.arm n).trace = s.trace := rfl

end

section
variable (s : State)

@[simp] theorem errorResponse_capacity : (s.errorResponse).capacity = s.capacity := rfl
@[simp] theorem errorResponse_st : (s.errorResponse).st = s.st := rfl
@[simp] theorem errorResponse_seq : (s.errorResponse).seq = s.seq := rfl
@[simp] theorem errorResponse_len : (s.errorResponse).len = s.len := rfl
@[simp] theorem errorResponse_cnt : (s.errorResponse).cnt = s.cnt := rfl
@[simp] theorem errorResponse_txc : (s.errorResponse).txc = some 0 := rfl
@[simp] theorem errorResponse_txlen : (s.errorResponse).txlen = 8 := rfl
@[simp] theorem errorResponse_serving : (s.errorResponse).serving = s.serving := rfl
@[simp] theorem errorResponse_rx : (s.errorResponse).rx = s.rx := rfl
@[simp] theorem errorResponse_rxAfter : (s.errorResponse).rxAfter = s.rxAfter := rfl
@[simp] theorem errorResponse_wr : (s.errorResponse).wr = s.wr := rfl
@[simp] theorem errorResponse_wrAfter : (s.errorResponse).wrAfter = s.wrAfter := rfl
@[simp] theorem errorResponse_proc : (s.errorResponse).proc = s.proc := rfl
@[simp] theorem errorResponse_procState : (s.errorResponse).procState = s.procState := rfl
@[simp] theorem errorResponse_schedule : (s.errorResponse).schedule = s.schedule := rfl
@[simp] theorem errorResponse_constructions : (s.errorResponse).constructions = s.constructions := rfl
@[simp] theorem errorResponse_trace : (s.errorResponse).trace = s.trace := rfl

end

section
variable (s : State)

@[simp] theorem returnToReceive_capacity : (s.returnToReceive).capacity = s.capacity := rfl
@[simp] theorem returnToReceive_st : (s.returnToReceive).st = s.st := rfl
@[simp] theorem returnToReceive_ck : (s.returnToReceive).ck = s.ck := rfl
@[simp] theorem returnToReceive_seq : (s.returnToReceive).seq = s.seq := rfl
@[simp] theorem returnToReceive_len : (s.returnToReceive).len = s.len := rfl
@[simp] theorem returnToReceive_cnt : (s.returnToReceive).cnt = s.cnt := rfl
@[simp] theorem returnToReceive_buf : (s.returnToReceive).buf = s.buf := rfl
@[simp] theorem returnToReceive_txc : (s.returnToReceive).txc = none := rfl
@[simp] theorem returnToReceive_txlen : (s.returnToReceive).txlen = s.txlen := rfl
@[simp] theorem returnToReceive_serving : (s.returnToReceive).serving = s.serving := rfl
@[simp] theorem returnToReceive_rx : (s.returnToReceive).rx = s.rx := rfl
@[simp] theorem returnToReceive_rxAfter : (s.returnToReceive).rxAfter = s.rxAfter := rfl
@[simp] theorem returnToReceive_wr : (s.returnToReceive).wr = s.wr := rfl
@[simp] theorem returnToReceive_wrAfter : (s.returnToReceive).wrAfter = s.wrAfter := rfl
@[simp] theorem returnToReceive_proc : (s.returnToReceive).proc = s.proc := rfl
@[simp] theorem returnToReceive_procState : (s.returnToReceive).procState = s.procState := rfl
@[simp] theorem returnToReceive_schedule : (s.returnToReceive).schedule = s.schedule := rfl
@[simp] theorem returnToReceive_constructions : (s.returnToReceive).constructions = s.constructions := rfl
@[simp] theorem returnToReceive_trace : (s.returnToReceive).trace = s.trace := rfl

end

section
variable (s : State) (a : ProcAnswer)

@[simp] theorem afterCall_capacity : (s.afterCall a).capacity = s.capacity := rfl
@[simp] theorem afterCall_st : (s.afterCall a).st = s.st := rfl
@[simp] theorem afterCall_ck : (s.afterCall a).ck = s.ck := rfl
@[simp] theorem afterCall_seq : (s.afterCall a).seq = s.seq := rfl
@[simp] theorem afterCall_len : (s.afterCall a).len = s.len := rfl
@[simp] theorem afterCall_cnt : (s.afterCall a).cnt = s.cnt := rfl
@[simp] theorem afterCall_buf : (s.afterCall a).buf = Memory.writeCells s.buf Config.head a.writes := rfl
@[simp] theorem afterCall_txc : (s.afterCall a).txc = s.txc := rfl
@[simp] theorem afterCall_txlen : (s.afterCall a).txlen = s.txlen := rfl
@[simp] theorem afterCall_serving : (s.afterCall a).serving = s.serving := rfl
@[simp] theorem afterCall_rx : (s.afterCall a).rx = s.rx := rfl
@[simp] theorem afterCall_rxAfter : (s.afterCall a).rxAfter = s.rxAfter := rfl
@[simp] theorem afterCall_wr : (s.afterCall a).wr = s.wr := rfl
@[simp] theorem afterCall_wrAfter : (s.afterCall a).wrAfter = s.wrAfter := rfl
@[simp] theorem afterCall_proc : (s.afterCall a).proc = s.proc := rfl
@[simp] theorem afterCall_procState : (s.afterCall a).procState = a.next.getD s.procState := rfl
@[simp] theorem afterCall_schedule : (s.afterCall a).schedule = s.schedule := rfl
@[simp] theorem afterCall_constructions : (s.afterCall a).constructions = s.constructions := rfl
@[simp] theorem afterCall_trace : (s.afterCall a).trace = s.trace ++ [.called s.payload a.length
      (Memory.slice (Memory.writeCells s.buf Config.head a.writes) Config.head a.length)] := rfl

end

section
variable (s : State) (c : Nat)

@[simp] theorem construct_capacity : (s.construct c).capacity = c := rfl
@[simp] theorem construct_st : (s.construct c).st = .start := rfl
@[simp] theorem construct_ck : (s.construct c).ck = Config.resetCk (s.constructions + 1) := rfl
@[simp] theorem construct_seq : (s.construct c).seq = Config.resetSeq (s.constructions + 1) := rfl
@[simp] theorem construct_len : (s.construct c).len = Config.resetLen (s.constructions + 1) := rfl
@[simp] theorem construct_cnt : (s.construct c).cnt = (Config.resetCnt (s.constructions + 1)).toNat := rfl
@[simp] theorem construct_buf : (s.construct c).buf = Memory.unspecified (s.constructions + 1) c := rfl
@[simp] theorem construct_txc : (s.construct c).txc = none := rfl
@[simp] theorem construct_txlen : (s.construct c).txlen = (Config.resetTxlen (s.constructions + 1)).toNat := rfl
@[simp] theorem construct_serving : (s.construct c).serving = s.serving := rfl
@[simp] theorem construct_rx : (s.construct c).rx = s.rx := rfl
@[simp] theorem construct_rxAfter : (s.construct c).rxAfter = s.rxAfter := rfl
@[simp] theorem construct_wr : (s.construct c).wr = s.wr := rfl
@[simp] theorem construct_wrAfter : (s.construct c).wrAfter = s.wrAfter := rfl
@[simp] theorem construct_proc : (s.construct c).proc = s.proc := rfl
@[simp] theorem construct_procState : (s.construct c).procState = s.procState := rfl
@[simp] theorem construct_schedule : (s.construct c).schedule = s.schedule := rfl
@[simp] theorem construct_constructions : (s.construct c).constructions = s.constructions + 1 := rfl
@[simp] theorem construct_trace : (s.construct c).trace = s.trace := rfl

end

section
variable (s : State)

@[simp] theorem afterRead_rx : s.afterRead.rx = s.rx.tail := rfl
@[simp] theorem afterRead_capacity : s.afterRead.capacity = s.capacity := rfl
@[simp] theorem afterRead_st : s.afterRead.st = s.st := rfl
@[simp] theorem afterRead_ck : s.afterRead.ck = s.ck := rfl
@[simp] theorem afterRead_seq : s.afterRead.seq = s.seq := rfl
@[simp] theorem afterRead_len : s.afterRead.len = s.len := rfl
@[simp] theorem afterRead_cnt : s.afterRead.cnt = s.cnt := rfl
@[simp] theorem afterRead_buf : s.afterRead.buf = s.buf := rfl
@[simp] theorem afterRead_txc : s.afterRead.txc = s.txc := rfl
@[simp] theorem afterRead_txlen : s.afterRead.txlen = s.txlen := rfl
@[simp] theorem afterRead_serving : s.afterRead.serving = s.serving := rfl
@[simp] theorem afterRead_wr : s.afterRead.wr = s.wr := rfl
@[simp] theorem afterRead_wrAfter : s.afterRead.wrAfter = s.wrAfter := rfl
@[simp] theorem afterRead_proc : s.afterRead.proc = s.proc := rfl
@[simp] theorem afterRead_procState : s.afterRead.procState = s.procState := rfl
@[simp] theorem afterRead_schedule : s.afterRead.schedule = s.schedule := rfl
@[simp] theorem afterRead_constructions : s.afterRead.constructions = s.constructions := rfl
@[simp] theorem afterRead_trace : s.afterRead.trace = s.trace := rfl

end

@[simp] theorem bind_none (s : State) : s.bind none = s := rfl

@[simp] theorem bind_some (s : State) (b : Binding) :
    s.bind (some b) =
      { s with
        rx := b.rx, rxAfter := b.rxAfter, wr := b.wr, wrAfter := b.wrAfter, proc := b.proc, procState := b.procState } := rfl

@[simp] theorem takeError_checksum (s : State) :
    s.takeError .checksum = { s with st := .start }.errorResponse := rfl

/-- An error other than E_CKSUM changes `ST` alone (R231). -/
theorem takeError_silent (s : State) (e : ErrorClass) (h : e ≠ .checksum) :
    s.takeError e = { s with st := .start } := by
  cases e <;> first | rfl | exact absurd rfl h

@[simp] theorem takeError_lengthError (s : State) (len : Length) :
    s.takeError (lengthError len) = { s with st := .start } :=
  takeError_silent s _ (by unfold lengthError; split <;> decide)

@[simp] theorem takeError_token (s : State) : s.takeError .token = { s with st := .start } := rfl

@[simp] theorem respond_zero (s : State) : s.respond 0 = s := rfl

theorem respond_pos (s : State) {r : Nat} (h : 0 < r) : s.respond r = s.arm r := if_pos h

/-- What D.RESP and D.NONE leave alone, whichever of them runs. -/
theorem respond_frame (s : State) (r : Nat) :
    (s.respond r).capacity = s.capacity ∧ (s.respond r).st = s.st ∧ (s.respond r).seq = s.seq ∧
      (s.respond r).len = s.len ∧ (s.respond r).cnt = s.cnt ∧ (s.respond r).serving = s.serving ∧
      (s.respond r).rx = s.rx ∧ (s.respond r).rxAfter = s.rxAfter ∧ (s.respond r).wr = s.wr ∧ (s.respond r).wrAfter = s.wrAfter ∧
      (s.respond r).proc = s.proc ∧
      (s.respond r).procState = s.procState ∧ (s.respond r).schedule = s.schedule ∧
      (s.respond r).constructions = s.constructions ∧ (s.respond r).trace = s.trace := by
  unfold State.respond
  split <;> simp

end Sys2Proof.Machine
end

