-- ==== Sys2Proof/Laws/Ops.lean ====
section
/-! SUPPORT. One lemma for each shared operation that says once everything it can do. -/

namespace Sys2Proof.Machine

/-! Checksums and frames. -/

theorem xorAll_append (l r : List Byte) : xorAll (l ++ r) = xorAll l ^^^ xorAll r := by
  induction l with
  | nil => simp [xorAll]
  | cons b rest ih => simp [xorAll, ih, BitVec.xor_assoc]

/-- The accumulator takes one byte more (R22). -/
theorem xorAll_snoc (l : List Byte) (b : Byte) : xorAll (l ++ [b]) = xorAll l ^^^ b := by
  simp [xorAll_append, xorAll]

/-- The XOR of all bytes of a frame, its checksum included, is 0 (R85). -/
theorem xorAll_frameBytes (seq : Byte) (p : List Byte) : xorAll (frameBytes seq p) = 0 := by
  simp [frameBytes, xorAll_snoc]

@[simp] theorem frameHeader_length (seq : Byte) (n : Nat) : (frameHeader seq n).length = 5 := rfl

@[simp] theorem frameBody_length (seq : Byte) (p : List Byte) : (frameBody seq p).length = 5 + p.length := by
  simp [frameBody]

@[simp] theorem frameBytes_length (seq : Byte) (p : List Byte) : (frameBytes seq p).length = p.length + 6 := by
  simp [frameBytes]; omega

/-- `{len>>8, len&0xFF}` is the length again (R83, R84). -/
theorem length_split {n : Nat} (h : n < 65536) : 256 * (lengthHi n).toNat + (lengthLo n).toNat = n := by
  simp only [lengthHi, lengthLo, BitVec.toNat_ofNat]
  omega

/-- The two length bytes assembled as the parser assembles them (R83). -/
theorem lengthLow_toNat (hi lo : Byte) : (lengthLow (lengthHigh hi) lo).toNat = 256 * hi.toNat + lo.toNat := by
  have h1 : hi.toNat < 256 := hi.isLt
  have h2 : lo.toNat < 2 ^ 8 := lo.isLt
  simp only [lengthLow, lengthHigh, zext16, BitVec.toNat_or, BitVec.toNat_shiftLeft, BitVec.toNat_setWidth,
    Nat.shiftLeft_eq]
  rw [Nat.mod_eq_of_lt (a := hi.toNat) (by omega), Nat.mod_eq_of_lt (a := lo.toNat) (by omega),
    Nat.mod_eq_of_lt (by omega), Nat.mul_comm hi.toNat, ← Nat.two_pow_add_eq_or_of_lt h2]

/-! Parameters and predicates. -/

/-- `CAPACITY` within the bounds of R7. -/
theorem capacityValid_iff {c : Nat} : capacityValid c = true ↔ 8 ≤ c ∧ c ≤ 65541 := by
  show (decide (8 ≤ c) && decide (c ≤ 65541)) = true ↔ _
  simp

/-- `MAXP = CAPACITY - 6` (R7). -/
theorem maxp_eq (s : State) : s.maxp = s.capacity - 6 := by
  show s.capacity - 5 - 1 = _
  omega

theorem isStart_false {b : Byte} : isStart b = false ↔ b ≠ 0x1B := by
  show decide (b = 0x1B) = false ↔ _
  exact decide_eq_false_iff_not

theorem isToken_false {b : Byte} : isToken b = false ↔ b ≠ 0x0E := by
  show decide (b = 0x0E) = false ↔ _
  exact decide_eq_false_iff_not

/-- LEN_VALID, written out (R29). -/
theorem lenValid_iff {s : State} {b : Byte} :
    lenValid s b = true ↔
      0 < (s.len ||| b.setWidth 16).toNat ∧ (s.len ||| b.setWidth 16).toNat ≤ s.maxp := by
  show (decide (0 < (s.len ||| b.setWidth 16).toNat) &&
    decide ((s.len ||| b.setWidth 16).toNat ≤ s.maxp)) = true ↔ _
  simp

/-- CK_ZERO, written out (R29). -/
theorem ckZero_iff {s : State} {b : Byte} : ckZero s b = true ↔ s.ck ^^^ b = 0 := decide_eq_true_iff

theorem ckZero_false {s : State} {b : Byte} : ckZero s b = false ↔ s.ck ^^^ b ≠ 0 :=
  decide_eq_false_iff_not

/-! Conditions of operations. -/

/-- A parser or dispatch operation gives a next state exactly in receive mode, where it is selected, as its
effect does. -/
theorem ifSelected_next {s t : State} {c : Bool} {r : Result} :
    ifSelected s c r = .next t ↔ s.txc = none ∧ c = true ∧ r = .next t := by
  unfold ifSelected
  cases s.txc <;> cases c <;> simp

theorem ifSelected_of {s : State} {c : Bool} (r : Result) (h : s.txc = none) (hc : c = true) :
    ifSelected s c r = r := by
  simp [ifSelected, h, hc]

theorem ifInBuffer_next {s t : State} {a : Nat} {r : Result} :
    ifInBuffer s a r = .next t ↔ a < s.capacity ∧ r = .next t := by
  unfold ifInBuffer
  split <;> simp_all

theorem ifInBuffer_of {s : State} {a : Nat} (r : Result) (h : a < s.capacity) : ifInBuffer s a r = r :=
  if_pos h

/-- A transmit micro-step gives a next state exactly with a pending frame that lies in `BUF`. -/
theorem ifPending_next {s t : State} {r : Nat → Result} :
    ifPending s r = .next t ↔ ∃ k, s.txc = some k ∧ k < s.txlen ∧ s.txlen ≤ s.capacity ∧ r k = .next t := by
  unfold ifPending
  cases h : s.txc with
  | none => simp
  | some k =>
    simp only [Option.some.injEq, exists_eq_left']
    split
    · rename_i hk
      rw [ifInBuffer_next]
      constructor
      · rintro ⟨h1, h2⟩; exact ⟨hk, by omega, h2⟩
      · rintro ⟨_, h1, h2⟩; exact ⟨by omega, h2⟩
    · simp_all

/-! The Processor call. -/

/-- The free Processor keeps the contract of R184. -/
theorem freeAnswer_fits (s : State) : answerFits s.maxp s.freeAnswer = true := by
  have : s.freeAnswer.length < s.maxp + 1 := Nat.mod_lt _ (Nat.succ_pos _)
  simp only [answerFits, Bool.and_eq_true, decide_eq_true_eq, List.all_eq_true]
  refine ⟨by omega, ?_⟩
  simp [State.freeAnswer]

/-- The Processor's answer, read off its cases (R186). -/
theorem answeredBy_iff {s : State} {a : ProcAnswer} : s.answeredBy a ↔ a = s.processorAnswer := by
  unfold State.answeredBy State.processorAnswer
  cases h : s.proc.find? s.inCase with
  | none =>
    have hn : ∀ x ∈ s.proc, s.inCase x = false := by simpa [List.find?_eq_none] using h
    constructor
    · rintro (⟨before, c, after, h1, _, h2, _⟩ | ⟨_, rfl⟩)
      · rw [hn c (by simp [h1])] at h2; cases h2
      · rfl
    · rintro rfl; exact .inr ⟨hn, rfl⟩
  | some c =>
    obtain ⟨hc, before, after, h1, h2⟩ := List.find?_eq_some_iff_append.1 h
    constructor
    · rintro (⟨before', c', after', h1', h2', h3', rfl⟩ | ⟨hn, _⟩)
      · have h4 : s.proc.find? s.inCase = some c' :=
          List.find?_eq_some_iff_append.2 ⟨h3', before', after', h1', fun x hx => by simp [h2' x hx]⟩
        rw [h] at h4; cases h4; rfl
      · rw [hn c (by simp [h1])] at hc; cases hc
    · rintro rfl
      exact .inl ⟨before, c, after, h1, fun x hx => by simpa using h2 x hx, hc, rfl⟩

/-- The Processor answers every call, in one way (R186). -/
theorem answeredBy_processorAnswer (s : State) : s.answeredBy s.processorAnswer := answeredBy_iff.2 rfl

/-- A Processor within its contract keeps it at every call (R184). -/
theorem processorAnswer_fits {s : State} (hc : s.processorKeepsContract) :
    answerFits s.maxp s.processorAnswer = true := by
  unfold State.processorAnswer
  split
  · rename_i c h; exact hc c (List.mem_of_find?_eq_some h)
  · exact freeAnswer_fits s

/-- An answer within the contract returns no more than `MAXP`. -/
theorem length_of_fits {m : Nat} {a : ProcAnswer} (h : answerFits m a = true) : a.length ≤ m := by
  simp only [answerFits, Bool.and_eq_true, decide_eq_true_eq] at h
  exact h.1

/-- Everything a Processor call that completes can do: an answer within the contract, and `completeCall`. -/
theorem callProcessor_next {s t : State} :
    callProcessor s = .next t ↔
      s.len.toNat ≤ s.maxp ∧ ∃ a, s.answeredBy a ∧ answerFits s.maxp a = true ∧ t = s.completeCall a := by
  simp only [answeredBy_iff, exists_eq_left]
  unfold callProcessor
  split
  · simp; omega
  · split
    · rename_i h
      simp only [reduceCtorEq, false_iff, not_and]
      intro _ hf
      have := length_of_fits hf
      omega
    · split
      · rename_i h
        simp only [Host.Outcome.next.injEq, h, true_and]
        constructor
        · rintro rfl; exact ⟨by omega, rfl⟩
        · rintro ⟨_, rfl⟩; rfl
      · simp_all

/-- A call under the Processor's contract completes (R184). -/
theorem callProcessor_completes {s : State} (hl : s.len.toNat ≤ s.maxp) (hc : s.processorKeepsContract) :
    ∃ a, s.answeredBy a ∧ answerFits s.maxp a = true ∧ callProcessor s = .next (s.completeCall a) :=
  have hf := processorAnswer_fits hc
  have ha := answeredBy_processorAnswer s
  ⟨_, ha, hf, callProcessor_next.2 ⟨hl, _, ha, hf, rfl⟩⟩

/-- An answer within the contract writes the payload region alone. -/
theorem writes_of_fits {m : Nat} {a : ProcAnswer} (h : answerFits m a = true) : ∀ c ∈ a.writes, c.1 < m := by
  simp only [answerFits, Bool.and_eq_true, decide_eq_true_eq, List.all_eq_true] at h
  exact h.2

/-! Arming a response (R147). -/

theorem wf_framed {s : State} (h : Memory.wf s.buf = true) (n : Nat) : Memory.wf (s.framed n) = true :=
  wf_writeBytes h 0 _

theorem wf_arm {s : State} (h : Memory.wf s.buf = true) (n : Nat) : Memory.wf (s.arm n).buf = true := by
  rw [arm_buf]; exact wf_write (wf_framed h n) _ _

/-- Outside the header and the checksum byte, arming leaves `BUF` as it was. -/
theorem read_arm_of_ne {s : State} (h : Memory.wf s.buf = true) {n a : Nat} (h1 : Config.head ≤ a)
    (h2 : a ≠ Config.head + n) : Memory.read (s.arm n).buf a = Memory.read s.buf a := by
  have h3 : 5 ≤ a := h1
  rw [arm_buf, read_write (wf_framed h n), if_neg h2, State.framed, read_writeBytes h, if_neg]
  simp; omega

/-- The bytes an armed frame's checksum covers: header and payload in place (R147). -/
theorem slice_framed {s : State} (h : Memory.wf s.buf = true) (n : Nat) :
    Memory.slice (s.framed n) 0 (Config.head + n) =
      frameHeader s.seq n ++ Memory.slice s.buf Config.head n := by
  rw [slice_append, Nat.zero_add]
  congr 1
  · exact slice_writeBytes h 0 (frameHeader s.seq n)
  · refine slice_congr fun i h1 _ => ?_
    have h3 : 5 ≤ i := h1
    rw [State.framed, read_writeBytes h, if_neg]
    simp; omega

/-- `arm_response(n)` leaves the frame of the payload in place at the bottom of `BUF` (R147, R151). -/
theorem slice_arm {s : State} (h : Memory.wf s.buf = true) (n : Nat) :
    Memory.slice (s.arm n).buf 0 (s.arm n).txlen =
      frameBytes s.seq (Memory.slice s.buf Config.head n) := by
  have hb : frameBody s.seq (Memory.slice s.buf Config.head n) =
      frameHeader s.seq n ++ Memory.slice s.buf Config.head n := by simp [frameBody]
  rw [frameBytes, hb, arm_txlen, arm_buf, ← slice_framed h n]
  show Memory.slice _ 0 (Config.head + n + 1) = _
  rw [slice_succ, Nat.zero_add]
  congr 1
  · refine slice_congr fun i _ h2 => ?_
    rw [read_write (wf_framed h n), if_neg (by omega)]
  · rw [read_write (wf_framed h n), if_pos rfl, State.armChecksum]

/-- Arming writes inside `BUF` (R59). -/
theorem arm_bounded {s : State} {n : Nat} (hb : ∀ c ∈ s.buf, c.1 < s.capacity)
    (h : Config.head + n < s.capacity) : ∀ c ∈ (s.arm n).buf, c.1 < s.capacity := by
  intro c hc
  have hh : Config.head = 5 := rfl
  rw [arm_buf] at hc
  rcases mem_write hc with hc | hc
  · rcases mem_writeBytes hc with hc | ⟨_, hc⟩
    · exact hb c hc
    · simp at hc; omega
  · omega

/-! The parser's selector: which operation `accept_byte` performs (R91). -/

theorem acceptByte_start {s : State} (b : Byte) (h : s.st = .start) :
    acceptByte b s = if b = Config.startSentinel then execPSync s else execPSkip b s := by
  simp only [acceptByte, selected, keyOf, guardBit, h, parserWord, stateNumber, decode, decodeParser]
  by_cases hb : b = Config.startSentinel <;> simp [hb, decoded, performParser]

theorem acceptByte_waitSeq {s : State} (b : Byte) (h : s.st = .waitSeq) : acceptByte b s = execPSeq b s := by
  simp [acceptByte, selected, keyOf, guardBit, h, parserWord, stateNumber, decode, decodeParser, decoded,
    performParser]

theorem acceptByte_waitLenMsb {s : State} (b : Byte) (h : s.st = .waitLenMsb) :
    acceptByte b s = execPLenh b s := by
  simp [acceptByte, selected, keyOf, guardBit, h, parserWord, stateNumber, decode, decodeParser, decoded,
    performParser]

theorem acceptByte_waitLenLsb {s : State} (b : Byte) (h : s.st = .waitLenLsb) :
    acceptByte b s = if lenValid s b then execPLenl b s else execPLenlDrop b s := by
  simp only [acceptByte, selected, keyOf, guardBit, h]
  cases lenValid s b <;> simp [parserWord, stateNumber, decode, decodeParser, decoded, performParser]

theorem acceptByte_waitToken {s : State} (b : Byte) (h : s.st = .waitToken) :
    acceptByte b s = if b = Config.tokenSentinel then execPToken s else execPTokenBad b s := by
  simp only [acceptByte, selected, keyOf, guardBit, h, parserWord, stateNumber, decode, decodeParser]
  by_cases hb : b = Config.tokenSentinel <;> simp [hb, decoded, performParser]

theorem acceptByte_data {s : State} (b : Byte) (h : s.st = .data) :
    acceptByte b s =
      if s.cnt + 1 < s.len.toNat then execPData b s
      else if s.cnt + 1 = s.len.toNat then execPDataLast b s else .refused .notSelected := by
  simp only [acceptByte, selected, keyOf, guardBit, h, moreBytes, lastByte, decide_eq_true_eq]
  by_cases h1 : s.cnt + 1 < s.len.toNat
  · simp [h1, parserWord, stateNumber, decode, decodeParser, decoded, performParser]
  · by_cases h2 : s.cnt + 1 = s.len.toNat <;>
      simp [h1, h2, parserWord, stateNumber, decode, decodeParser, decoded, performParser]

theorem acceptByte_waitCksum {s : State} (b : Byte) (h : s.st = .waitCksum) :
    acceptByte b s = if ckZero s b then execPCksumOk b s else execPCksumErr b s := by
  simp only [acceptByte, selected, keyOf, guardBit, h]
  cases ckZero s b <;> simp [parserWord, stateNumber, decode, decodeParser, decoded, performParser]

/-! A step. -/

/-- The engine's turn with nobody else waiting. -/
theorem fetch_engine {s : State} (h : s.schedule = []) : fetch s = fetchMicro s := by simp [fetch, h]

/-- A byte is read: the step is one parser operation on it, after the byte is taken and observed. -/
theorem step_byte {s : State} {b : Byte} (hs : s.schedule = []) (ht : s.txc = none) (hr : s.rxAnswer = .byte b) :
    step s = acceptByte b { s with
      rx := s.afterRead.rx, rxAfter := s.afterRead.rxAfter
      trace := s.trace ++ [.consumed b], serving := true } := by
  have h : fetch s = (.sRxByte b, s.afterRead) := by simp [fetch_engine hs, fetchMicro, ht, hr, readStep]
  rw [step, h]
  rfl

/-- A read that answers nothing: `service` returns. -/
theorem step_noData {s : State} (hs : s.schedule = []) (ht : s.txc = none) (hr : s.rxAnswer = .noData) :
    step s = .next { s with rx := s.afterRead.rx, rxAfter := s.afterRead.rxAfter, serving := false } := by
  simp [step, fetch_engine hs, fetchMicro, ht, hr, readStep, exec, execSRxNodata]

/-- A read of a listed answer (R180). -/
theorem rxAnswer_cons {s : State} {a : RxAnswer} {rest : List RxAnswer} (h : s.rx = a :: rest) :
    s.rxAnswer = a ∧ s.afterRead = { s with rx := rest } := by
  simp [State.rxAnswer, State.afterRead, h]

/-- A read with nothing listed goes to the endless sequence (D27). -/
theorem rxAnswer_nil {s : State} (h : s.rx = []) :
    s.rxAnswer = tailAnswer s.rxAfter ∧ s.afterRead = { s with rxAfter := tailNext s.rxAfter } := by
  simp [State.rxAnswer, State.afterRead, h]

/-- Listed bytes are handed over. -/
theorem handsOver_listed {bytes : List Byte} {s : State} {rest : List RxAnswer}
    (h : s.rx = bytes.map .byte ++ rest) : s.handsOver bytes { s with rx := rest } := by
  induction bytes generalizing s with
  | nil => simp only [List.map_nil, List.nil_append] at h; simp [State.handsOver, ← h]
  | cons b bytes ih =>
    obtain ⟨h1, h2⟩ := rxAnswer_cons h
    refine ⟨h1, ?_⟩
    rw [h2]
    exact ih rfl

end Sys2Proof.Machine
end

