-- ==== Sys2Proof/Laws/PerInstr.lean ====
section
/-! SUPPORT. The statements made per instruction: decoding the word of a well-formed operation gives the
operation back, one lemma per constructor of `Instr`. -/

namespace Sys2Proof.Laws

open Sys2Proof.Machine

/-- The bytes of a number, read as a number, are that number again. -/
theorem bytesNat_natBytes (n v : Nat) : bytesNat (natBytes n v) = v % 256 ^ n := by
  induction n generalizing v with
  | zero => simp [natBytes, bytesNat, Nat.mod_one]
  | succ n ih =>
    have h : v % (256 * 256 ^ n) = v % 256 + 256 * (v / 256 % 256 ^ n) := Nat.mod_mul
    rw [natBytes, bytesNat, ih, BitVec.toNat_ofNat, pow_succ 256 n, Nat.mul_comm (256 ^ n) 256, h]
    omega

theorem natBytes_two (v : Nat) : ∃ x y, natBytes 2 v = [x, y] := ⟨_, _, rfl⟩

theorem natBytes_three (v : Nat) : ∃ x y z, natBytes 3 v = [x, y, z] := ⟨_, _, _, rfl⟩

theorem decode_dispatch (k : Byte) {v : Nat} (h : v < 65536) :
    decode .dispatch (k :: natBytes 2 v) = decodeDispatch k v := by
  have hv := bytesNat_natBytes 2 v
  obtain ⟨x, y, e⟩ := natBytes_two v
  rw [e] at hv ⊢
  simp only [decode]
  rw [hv, Nat.mod_eq_of_lt (by omega)]

theorem decode_driver (k : Byte) {v : Nat} (h : v < 16777216) :
    decode .driver (k :: natBytes 3 v) = decodeDriver k v := by
  have hv := bytesNat_natBytes 3 v
  obtain ⟨x, y, z, e⟩ := natBytes_three v
  rw [e] at hv ⊢
  simp only [decode]
  rw [hv, Nat.mod_eq_of_lt (by omega)]

theorem decode_reset {c : Nat} (h : capacityValid c = true) :
    decode .reset (natBytes 3 c) = .ok (.reset c none) := by
  have hc : c < 16777216 := by
    have h1 := h
    have h2 : Config.maxCapacity = 65541 := rfl
    simp only [capacityValid, Bool.and_eq_true, decide_eq_true_eq] at h1
    omega
  have hv := bytesNat_natBytes 3 c
  obtain ⟨x, y, z, e⟩ := natBytes_three c
  rw [e] at hv ⊢
  simp only [decode]
  rw [hv, Nat.mod_eq_of_lt (by omega), if_pos h]

/-- Every frame that the format can express is read back (R80, R141). -/
theorem decodeFrame_frameBytes (seq : Byte) {p : List Byte} (h : p.length < 65536) :
    decodeFrame (frameBytes seq p) = .ok (seq, p) := by
  have hs := length_split h
  simp only [frameBytes, frameBody, frameHeader, List.cons_append, List.nil_append, decodeFrame]
  rw [if_neg (by simp), if_neg (by simp), if_neg (by simp; omega)]
  simp

namespace DecodeEncode

/-- Decoding the word of a well-formed operation gives the operation back. -/
def Statement (i : Instr) : Prop :=
  i.wellFormed = true → ∀ f w, encode i = some (f, w) → decode f w = .ok i

theorem of_word {i : Instr} {f : Format} {w : List Byte} (he : encode i = some (f, w))
    (hd : i.wellFormed = true → decode f w = .ok i) : Statement i := by
  intro hi f' w' h
  rw [he] at h
  obtain ⟨rfl, rfl⟩ := Prod.mk.inj (Option.some.inj h)
  exact hd hi

theorem pSync : Statement .pSync := of_word rfl fun _ => rfl

theorem pSkip (b : Byte) : Statement (.pSkip b) := by
  refine of_word rfl fun hi => ?_
  have hb : b ≠ Config.startSentinel := by
    intro h
    simp [Instr.wellFormed, Instr.check, h] at hi
  simp [parserWord, decode, decodeParser, stateNumber, hb]

theorem pSeq (b : Byte) : Statement (.pSeq b) := of_word rfl fun _ => rfl

theorem pLenh (b : Byte) : Statement (.pLenh b) := of_word rfl fun _ => rfl

theorem pLenl (b : Byte) : Statement (.pLenl b) := of_word rfl fun _ => rfl

theorem pLenlDrop (b : Byte) : Statement (.pLenlDrop b) := of_word rfl fun _ => rfl

theorem pToken : Statement .pToken := of_word rfl fun _ => rfl

theorem pTokenBad (b : Byte) : Statement (.pTokenBad b) := by
  refine of_word rfl fun hi => ?_
  have hb : b ≠ Config.tokenSentinel := by
    intro h
    simp [Instr.wellFormed, Instr.check, h] at hi
  simp [parserWord, decode, decodeParser, stateNumber, hb]

theorem pData (b : Byte) : Statement (.pData b) := of_word rfl fun _ => rfl

theorem pDataLast (b : Byte) : Statement (.pDataLast b) := of_word rfl fun _ => rfl

theorem pCksumOk (b : Byte) : Statement (.pCksumOk b) := of_word rfl fun _ => rfl

theorem pCksumErr (b : Byte) : Statement (.pCksumErr b) := of_word rfl fun _ => rfl

theorem dErr : Statement .dErr := of_word rfl fun _ => rfl

theorem dCall : Statement .dCall := of_word rfl fun _ => rfl

theorem dResp (r : Nat) : Statement (.dResp r) := by
  refine of_word rfl fun hi => ?_
  have hr : 0 < r ∧ r < 65536 := by
    by_contra h
    simp [Instr.wellFormed, Instr.check, h] at hi
  rw [decode_dispatch _ hr.2]
  simp [decodeDispatch, Nat.ne_of_gt hr.1]

theorem dNone : Statement .dNone := of_word rfl fun _ => rfl

theorem dArm (len : Nat) : Statement (.dArm len) := by
  refine of_word rfl fun hi => ?_
  have hr : 0 < len ∧ len < 65536 := by
    by_contra h
    simp [Instr.wellFormed, Instr.check, h] at hi
  rw [decode_dispatch _ hr.2]
  simp [decodeDispatch, Nat.ne_of_gt hr.1]

theorem sRxNodata : Statement .sRxNodata := of_word rfl fun _ => rfl

theorem sRxByte (b : Byte) : Statement (.sRxByte b) := by
  refine of_word rfl fun _ => ?_
  have hb : b.toNat < 256 := b.isLt
  rw [decode_driver _ (by omega)]
  simp [decodeDriver, hb]

theorem sTxStall : Statement .sTxStall := of_word rfl fun _ => rfl

theorem sTxPart (n : Nat) : Statement (.sTxPart n) := by
  refine of_word rfl fun hi => ?_
  have hn : 0 < n ∧ n < Config.maxCapacity := by
    by_contra h
    simp [Instr.wellFormed, Instr.check, h] at hi
  have hm : Config.maxCapacity = 65541 := rfl
  rw [decode_driver _ (by omega)]
  have h1 : n - 1 + 1 = n := by omega
  simp [decodeDriver, h1, hn.2]

theorem sTxDone : Statement .sTxDone := of_word rfl fun _ => rfl

theorem reset (c : Nat) (binding : Option Binding) : Statement (.reset c binding) := by
  cases binding with
  | none =>
    refine of_word rfl fun hi => decode_reset ?_
    by_contra h
    simp [Instr.wellFormed, Instr.check, h] at hi
  | some b => intro _ f w h; cases h

theorem frameReq (seq : Byte) (p : List Byte) : Statement (.frameReq seq p) := by
  refine of_word rfl fun hi => ?_
  have hp : p.length < 65536 := by
    by_contra h
    simp [Instr.wellFormed, Instr.check, h] at hi
  simp [decode, decodeFrame_frameBytes seq hp, Except.map]

theorem frameRsp (seq : Byte) (p : List Byte) : Statement (.frameRsp seq p) := by
  refine of_word rfl fun hi => ?_
  have hp : p.length ≠ 0 ∧ p.length < 65536 ∧ p ≠ errorPayload := by
    by_contra h
    simp only [Instr.wellFormed, Instr.check] at hi
    split at hi
    · cases hi
    · split at hi
      · cases hi
      · split at hi
        · cases hi
        · exact h ⟨by assumption, by omega, by assumption⟩
  simp [decode, decodeFrame_frameBytes seq hp.2.1, Except.bind, responseRow,
    (by simpa using hp.1 : p ≠ []), hp.2.2]

theorem frameErr (seq : Byte) : Statement (.frameErr seq) := by
  refine of_word rfl fun _ => ?_
  have hp : errorPayload.length < 65536 := by decide
  simp [decode, errorFrame, decodeFrame_frameBytes seq hp, Except.bind, responseRow]
  decide

end DecodeEncode

end Sys2Proof.Laws
end

