-- ==== Sys2Proof/Laws/Step.lean ====
section
/-! SUPPORT. What a step can do, said once: one inversion lemma for `accept_byte`, one for a micro-step of the
engine, one for a step; and the small lemmas about traces, runs and completed calls that go with them. -/

namespace Sys2Proof.Machine

/-! A completed Processor call. -/

/-- With `R > 0` a completed call arms the response (R145). -/
theorem completeCall_pos (s : State) (a : ProcAnswer) (h : 0 < a.length) :
    s.completeCall a = (s.afterCall a).arm a.length := by
  simp [State.completeCall, respond_pos _ h]

/-- With `R = 0` a completed call arms nothing (R146). -/
theorem completeCall_zero (s : State) (a : ProcAnswer) (h : a.length = 0) :
    s.completeCall a = s.afterCall a := by
  simp [State.completeCall, h]

/-- What a completed call leaves unchanged. -/
theorem completeCall_frame (s : State) (a : ProcAnswer) :
    s.completeCall a = { s with
      ck := (s.completeCall a).ck, buf := (s.completeCall a).buf, txc := (s.completeCall a).txc
      txlen := (s.completeCall a).txlen, procState := a.next.getD s.procState
      trace := (s.completeCall a).trace } := by
  rcases Nat.eq_zero_or_pos a.length with h | h
  · rw [completeCall_zero _ _ h]; rfl
  · rw [completeCall_pos _ _ h]; rfl

/-- A completed call is one observed invocation. -/
theorem completeCall_trace (s : State) (a : ProcAnswer) :
    (s.completeCall a).trace = s.trace ++
      [.called s.payload a.length
        (Memory.slice (Memory.writeCells s.buf Config.head a.writes) Config.head a.length)] := by
  rcases Nat.eq_zero_or_pos a.length with h | h
  · rw [completeCall_zero _ _ h]; rfl
  · rw [completeCall_pos _ _ h]; rfl

/-! Slices, and the last bytes of a stream. -/

theorem take_slice (m : Memory) (a n k : Nat) (h : n ≤ k) :
    (Memory.slice m a k).take n = Memory.slice m a n := by
  obtain ⟨j, rfl⟩ := Nat.exists_eq_add_of_le h
  rw [slice_append, List.take_left' (by simp)]

theorem drop_slice (m : Memory) (a n k : Nat) (h : n ≤ k) :
    (Memory.slice m a k).drop n = Memory.slice m (a + n) (k - n) := by
  obtain ⟨j, rfl⟩ := Nat.exists_eq_add_of_le h
  rw [slice_append, List.drop_left' (by simp)]; simp

theorem lastOf_zero (l : List Byte) : lastOf 0 l = [] := by simp [lastOf]

theorem lastOf_length (n : Nat) (l : List Byte) (h : n ≤ l.length) : (lastOf n l).length = n := by
  simp [lastOf]; omega

theorem lastOf_append (n : Nat) (l r : List Byte) :
    lastOf (n + r.length) (l ++ r) = lastOf n l ++ r := by
  simp only [lastOf, List.length_append]
  rw [show l.length + r.length - (n + r.length) = l.length - n by omega,
    List.drop_append_of_le_length (by omega)]

theorem lastOf_snoc (n : Nat) (l : List Byte) (b : Byte) :
    lastOf (n + 1) (l ++ [b]) = lastOf n l ++ [b] := lastOf_append n l [b]

/-! Runs. -/

theorem run_succ {n : Nat} {s t : State} (h : step s = .next t) : run (n + 1) s = run n t := by
  simp [run, h]

theorem run_add {n m : Nat} {s t : State} (h : run n s = .next t) : run (n + m) s = run m t := by
  induction n generalizing s with
  | zero => cases h; simp
  | succ n ih =>
    rw [Nat.add_right_comm]
    simp only [run] at h ⊢
    cases hs : step s <;> simp only [hs] at h ⊢ <;> first | exact ih h | cases h

/-! What an operation can do. -/

/-- Everything a parser operation that completes can do. -/
inductive Accepts (b : Byte) (s : State) : State → Prop
  | sync (h : s.st = .start) (hb : b = 0x1B) : Accepts b s { s with ck := 0x1B, st := .waitSeq }
  | skip (h : s.st = .start) (hb : b ≠ 0x1B) : Accepts b s s
  | seq (h : s.st = .waitSeq) : Accepts b s { s with ck := s.ck ^^^ b, seq := b, st := .waitLenMsb }
  | lenh (h : s.st = .waitLenMsb) :
      Accepts b s { s with ck := s.ck ^^^ b, len := lengthHigh b, st := .waitLenLsb }
  | lenl (h : s.st = .waitLenLsb) (hv : lenValid s b = true) :
      Accepts b s { s with ck := s.ck ^^^ b, len := lengthLow s.len b, cnt := 0, st := .waitToken }
  | lenlDrop (h : s.st = .waitLenLsb) (hv : lenValid s b = false) :
      Accepts b s { s with ck := s.ck ^^^ b, len := lengthLow s.len b, cnt := 0, st := .start }
  | token (h : s.st = .waitToken) (hb : b = 0x0E) : Accepts b s { s with ck := s.ck ^^^ 0x0E, st := .data }
  | tokenBad (h : s.st = .waitToken) (hb : b ≠ 0x0E) : Accepts b s { s with st := .start }
  | data (h : s.st = .data) (hc : s.cnt + 1 < s.len.toNat) (ha : 5 + s.cnt < s.capacity) :
      Accepts b s { s with ck := s.ck ^^^ b, cnt := s.cnt + 1, buf := Memory.write s.buf (5 + s.cnt) b }
  | dataLast (h : s.st = .data) (hc : s.cnt + 1 = s.len.toNat) (ha : 5 + s.cnt < s.capacity) :
      Accepts b s
        { s with ck := s.ck ^^^ b, cnt := s.cnt + 1, buf := Memory.write s.buf (5 + s.cnt) b, st := .waitCksum }
  | cksumOk (a : ProcAnswer) (h : s.st = .waitCksum) (hb : b = s.ck) (hl : s.len.toNat ≤ s.maxp)
      (ha : s.answeredBy a)
      (hf : answerFits s.maxp a = true) : Accepts b s ({ s with ck := 0, st := .start }.completeCall a)
  | cksumErr (h : s.st = .waitCksum) (hb : s.ck ^^^ b ≠ 0) (hc : 7 < s.capacity) :
      Accepts b s ({ s with ck := s.ck ^^^ b, st := .start }.errorResponse)

/-- Both errors of a rejected length leave the same state. -/
theorem lengthError_take (s : State) (l : Length) : s.takeError (lengthError l) = { s with st := .start } := by
  unfold lengthError; split <;> rfl

/-- `accept_byte`, both ways. -/
theorem acceptByte_next {b : Byte} {s t : State} : acceptByte b s = .next t ↔ s.txc = none ∧ Accepts b s t := by
  constructor
  · intro h
    cases hst : s.st
    · rw [acceptByte_start b hst] at h
      split at h
      · rename_i hb
        unfold execPSync at h
        rw [ifSelected_next] at h
        obtain ⟨h1, _, h2⟩ := h
        cases h2; exact ⟨h1, .sync hst hb⟩
      · rename_i hb
        unfold execPSkip at h
        rw [ifSelected_next] at h
        obtain ⟨h1, _, h2⟩ := h
        cases h2; exact ⟨h1, .skip hst hb⟩
    · rw [acceptByte_waitSeq b hst, execPSeq, ifSelected_next] at h
      obtain ⟨h1, _, h2⟩ := h
      cases h2; exact ⟨h1, .seq hst⟩
    · rw [acceptByte_waitLenMsb b hst, execPLenh, ifSelected_next] at h
      obtain ⟨h1, _, h2⟩ := h
      cases h2; exact ⟨h1, .lenh hst⟩
    · rw [acceptByte_waitLenLsb b hst] at h
      split at h
      · rename_i hb
        rw [execPLenl, ifSelected_next] at h
        obtain ⟨h1, _, h2⟩ := h
        cases h2; exact ⟨h1, .lenl hst hb⟩
      · rename_i hb
        rw [execPLenlDrop, ifSelected_next] at h
        obtain ⟨h1, _, h2⟩ := h
        rw [lengthError_take] at h2
        cases h2; exact ⟨h1, .lenlDrop hst (by simpa using hb)⟩
    · rw [acceptByte_waitToken b hst] at h
      split at h
      · rename_i hb
        rw [execPToken, ifSelected_next] at h
        obtain ⟨h1, _, h2⟩ := h
        cases h2; exact ⟨h1, .token hst hb⟩
      · rename_i hb
        rw [execPTokenBad, ifSelected_next] at h
        obtain ⟨h1, _, h2⟩ := h
        cases h2; exact ⟨h1, .tokenBad hst hb⟩
    · rw [acceptByte_data b hst] at h
      split at h
      · rename_i hb
        rw [execPData, ifSelected_next, ifInBuffer_next] at h
        obtain ⟨h1, _, h2, h3⟩ := h
        cases h3; exact ⟨h1, .data hst hb h2⟩
      · split at h
        · rename_i hb
          rw [execPDataLast, ifSelected_next, ifInBuffer_next] at h
          obtain ⟨h1, _, h2, h3⟩ := h
          cases h3; exact ⟨h1, .dataLast hst hb h2⟩
        · cases h
    · rw [acceptByte_waitCksum b hst] at h
      split at h
      · rename_i hb
        replace hb := BitVec.xor_eq_zero_iff.1 (ckZero_iff.1 hb)
        subst hb
        rw [execPCksumOk, ifSelected_next, BitVec.xor_self] at h
        obtain ⟨h1, _, h2⟩ := h
        obtain ⟨h3, a, h4, h5, rfl⟩ := callProcessor_next.1 h2
        exact ⟨h1, .cksumOk a hst rfl h3 h4 h5⟩
      · rename_i hb
        rw [execPCksumErr, ifSelected_next, ifInBuffer_next] at h
        obtain ⟨h1, _, h2, h3⟩ := h
        cases h3; exact ⟨h1, .cksumErr hst (ckZero_false.1 (by simpa using hb)) h2⟩
  · rintro ⟨h1, h⟩
    cases h with
    | sync h hb =>
      rw [acceptByte_start b h, if_pos (show b = Config.startSentinel from hb)]
      exact ifSelected_of _ h1 (by simp [h])
    | skip h hb =>
      rw [acceptByte_start b h, if_neg (show b ≠ Config.startSentinel from hb)]
      exact ifSelected_of _ h1 (by simp [h, isStart_false.2 hb])
    | seq h => rw [acceptByte_waitSeq b h]; exact ifSelected_of _ h1 (by simp [h])
    | lenh h => rw [acceptByte_waitLenMsb b h]; exact ifSelected_of _ h1 (by simp [h])
    | lenl h hv => rw [acceptByte_waitLenLsb b h, if_pos hv]; exact ifSelected_of _ h1 (by simp [h, hv])
    | lenlDrop h hv =>
      rw [acceptByte_waitLenLsb b h, if_neg (by simp [hv]), execPLenlDrop, lengthError_take]
      exact ifSelected_of _ h1 (by simp [h, hv])
    | token h hb =>
      rw [acceptByte_waitToken b h, if_pos (show b = Config.tokenSentinel from hb)]
      exact ifSelected_of _ h1 (by simp [h])
    | tokenBad h hb =>
      rw [acceptByte_waitToken b h, if_neg (show b ≠ Config.tokenSentinel from hb)]
      exact ifSelected_of _ h1 (by simp [h, isToken_false.2 hb])
    | data h hc ha =>
      rw [acceptByte_data b h, if_pos hc, execPData, ifSelected_of _ h1 (by simp [h, moreBytes, hc])]
      exact ifInBuffer_of _ ha
    | dataLast h hc ha =>
      rw [acceptByte_data b h, if_neg (by omega), if_pos hc, execPDataLast,
        ifSelected_of _ h1 (by simp [h, lastByte, hc])]
      exact ifInBuffer_of _ ha
    | cksumOk a h hb hl ha hf =>
      subst hb
      have hz : ckZero s s.ck = true := by simp [ckZero]
      rw [acceptByte_waitCksum _ h, if_pos hz, execPCksumOk, ifSelected_of _ h1 (by simp [h, hz]),
        BitVec.xor_self]
      exact callProcessor_next.2 ⟨hl, a, ha, hf, rfl⟩
    | cksumErr h hb hc =>
      have hz := ckZero_false.2 hb
      rw [acceptByte_waitCksum _ h, if_neg (by simp [hz]), execPCksumErr,
        ifSelected_of _ h1 (by simp [h, hz])]
      exact ifInBuffer_of _ hc

/-- Everything a micro-step of the engine that completes can do. -/
inductive Micro (s : State) : State → Prop
  | noData (h : s.txc = none) (hr : s.rxAnswer = .noData) :
      Micro s { s with rx := s.afterRead.rx, rxAfter := s.afterRead.rxAfter, serving := false }
  | byte (b : Byte) (t : State) (h : s.txc = none) (hr : s.rxAnswer = .byte b)
      (ha : Accepts b { s with
        rx := s.afterRead.rx, rxAfter := s.afterRead.rxAfter
        trace := s.trace ++ [.consumed b], serving := true } t) : Micro s t
  | stall (k : Nat) (h : s.txc = some k) (hk : k < s.txlen) (hc : s.txlen ≤ s.capacity)
      (hw : accepts s.wr s.wrAfter (s.txlen - k) = 0) :
      Micro s { s with wr := s.wr.tail, serving := false }
  | part (k n : Nat) (h : s.txc = some k) (hk : k < s.txlen) (hc : s.txlen ≤ s.capacity)
      (hw : accepts s.wr s.wrAfter (s.txlen - k) = n) (h0 : 0 < n) (hn : n < s.txlen - k) :
      Micro s { s with
        wr := s.wr.tail, serving := true, txc := some (k + n)
        trace := s.trace ++ [.accepted (Memory.slice s.buf k n)] }
  | done (k : Nat) (h : s.txc = some k) (hk : k < s.txlen) (hc : s.txlen ≤ s.capacity)
      (hw : accepts s.wr s.wrAfter (s.txlen - k) = s.txlen - k) :
      Micro s { s with
        wr := s.wr.tail, serving := true, txc := none
        trace := s.trace ++ [.accepted (Memory.slice s.buf k (s.txlen - k))] }

theorem accepts_le (wr : List Nat) (after : Option Nat) (n : Nat) : accepts wr after n ≤ n := by
  unfold accepts; split <;> omega

theorem fetchMicro_read {s : State} {a : RxAnswer} (h : s.txc = none) (hr : s.rxAnswer = a) :
    fetchMicro s = (readStep a, s.afterRead) := by
  simp [fetchMicro, h, hr]

theorem fetchMicro_write {s : State} {k : Nat} (h : s.txc = some k) :
    fetchMicro s =
      (writeStep (accepts s.wr s.wrAfter (s.txlen - k)) (s.txlen - k), { s with wr := s.wr.tail }) := by
  simp [fetchMicro, h]

theorem sRxNodata_next {s t : State} :
    exec .sRxNodata s = .next t ↔ s.txc = none ∧ t = { s with serving := false } := by
  show (if _ then _ else _) = _ ↔ _
  cases s.txc <;> simp [eq_comm]

theorem pending_step {s u : State} {k : Nat} (h : s.txc = some k) (r : Nat → Result) :
    ifPending { s with wr := s.wr.tail } r = .next u ↔
      k < s.txlen ∧ s.txlen ≤ s.capacity ∧ r k = .next u := by
  rw [ifPending_next]
  simp [h]

/-- A micro-step, both ways. -/
theorem microStep_next {s t : State} : microStep s = .next t ↔ Micro s t := by
  unfold microStep
  constructor
  · intro h
    cases hk : s.txc with
    | none =>
      cases hr : s.rxAnswer with
      | noData =>
        rw [fetchMicro_read hk hr] at h
        obtain ⟨_, rfl⟩ := sRxNodata_next.1 h
        exact .noData hk hr
      | byte b =>
        rw [fetchMicro_read hk hr] at h
        exact .byte b t hk hr (acceptByte_next.1 h).2
    | some k =>
      have hle := accepts_le s.wr s.wrAfter (s.txlen - k)
      rw [fetchMicro_write hk] at h
      simp only [writeStep] at h
      split at h
      · rename_i hw
        obtain ⟨h2, h3, h4⟩ := (pending_step hk _).1 h
        cases h4
        exact .done k hk h2 h3 hw
      · split at h
        · rename_i hw
          obtain ⟨h2, h3, h4⟩ := (pending_step hk _).1 h
          cases h4
          exact .stall k hk h2 h3 hw
        · obtain ⟨h2, h3, h4⟩ := (pending_step hk _).1 h
          split at h4
          · cases h4
            exact .part k _ hk h2 h3 rfl (by omega) (by omega)
          · cases h4
  · intro h
    cases h with
    | noData h hr =>
      rw [fetchMicro_read h hr]
      exact sRxNodata_next.2 ⟨h, rfl⟩
    | byte b _ h hr ha =>
      rw [fetchMicro_read h hr]
      exact acceptByte_next.2 ⟨h, ha⟩
    | stall k h hk hc hw =>
      rw [fetchMicro_write h, hw]
      simp only [writeStep]
      rw [if_neg (by omega), if_pos trivial]
      exact (pending_step h _).2 ⟨hk, hc, rfl⟩
    | part k n h hk hc hw h0 hn =>
      rw [fetchMicro_write h, hw]
      simp only [writeStep]
      rw [if_neg (by omega), if_neg (by omega)]
      exact (pending_step h _).2 ⟨hk, hc, if_pos ⟨h0, hn⟩⟩
    | done k h hk hc hw =>
      rw [fetchMicro_write h, hw]
      simp only [writeStep]
      rw [if_pos trivial]
      exact (pending_step h _).2 ⟨hk, hc, rfl⟩

/-- Everything a step that completes can do. -/
inductive Steps (s : State) : State → Prop
  | engine (t : State) (h : s.schedule = []) (hm : Micro s t) : Steps s t
  | turn (rest : List Turn) (t : State) (h : s.schedule = .framer :: rest)
      (hm : Micro { s with schedule := rest } t) : Steps s t
  | request (q : Byte) (p : List Byte) (rest : List Turn) (h : s.schedule = .peerSends q p :: rest)
      (hp : p.length < 65536) :
      Steps s { s with schedule := rest, rx := s.rx ++ (frameBytes q p).map .byte }
  | construct (c : Nat) (g : Option Binding) (rest : List Turn) (h : s.schedule = .construct c g :: rest)
      (hc : capacityValid c = true) (hs : s.serving = false) :
      Steps s (({ s with schedule := rest }.bind g).construct c)

theorem execReset_next {c : Nat} {g : Option Binding} {s t : State} :
    exec (.reset c g) s = .next t ↔
      capacityValid c = true ∧ s.serving = false ∧ t = (s.bind g).construct c := by
  simp only [exec, execReset]
  cases capacityValid c <;> cases s.serving <;> simp [eq_comm]

/-- A step, both ways. -/
theorem step_next {s t : State} : step s = .next t ↔ Steps s t := by
  constructor
  · intro h
    unfold step at h
    unfold fetch at h
    cases hs : s.schedule with
    | nil => rw [hs] at h; exact .engine t hs (microStep_next.1 h)
    | cons x rest =>
      rw [hs] at h
      cases x with
      | framer => exact .turn rest t hs (microStep_next.1 h)
      | peerSends q p =>
        change (if _ then _ else _) = _ at h
        split at h
        · rename_i hp; cases h; exact .request q p rest hs hp
        · cases h
      | construct c g =>
        obtain ⟨h1, h2, rfl⟩ := execReset_next.1 h
        exact .construct c g rest hs h1 h2
  · intro h
    unfold step fetch
    cases h with
    | engine t h hm => rw [h]; exact microStep_next.2 hm
    | turn rest t h hm => rw [h]; exact microStep_next.2 hm
    | request q p rest h hp => rw [h]; exact if_pos hp
    | construct c g rest h hc hs => rw [h]; exact execReset_next.2 ⟨hc, hs, rfl⟩


end Sys2Proof.Machine
end

