-- ==== Sys2Proof/Laws/Stimulus.lean ====
section
/-! SUPPORT. `service` called with enough patience returns, and what the end of a run (R172) is. -/

namespace Sys2Proof.Machine

/-- What remains for a `service` call to do at most: bytes to read, each good for a response of up to `CAPACITY`
bytes, and the rest of the pending response. -/
def State.work (s : State) : Nat :=
  s.rx.length * (s.capacity + 1) + (match s.txc with
    | none => 0
    | some k => s.txlen - k)

/-- A parser operation leaves the transport alone, and a response it arms lies in `BUF` (R59). -/
theorem accepts_work {b : Byte} {s t : State} (h : s.txc = none) (ha : Accepts b s t) :
    t.rx = s.rx ∧ t.rxAfter = s.rxAfter ∧ t.capacity = s.capacity ∧
      (t.txc = none ∨ t.txc = some 0 ∧ t.txlen ≤ t.capacity) := by
  cases ha with
  | cksumOk a _ _ _ _ hf =>
    have hm := maxp_eq s
    have hl := length_of_fits hf
    rcases Nat.eq_zero_or_pos a.length with h0 | h0
    · rw [completeCall_zero _ _ h0]; exact ⟨rfl, rfl, rfl, .inl h⟩
    · rw [completeCall_pos _ _ h0]
      refine ⟨rfl, rfl, rfl, .inr ⟨rfl, ?_⟩⟩
      show 5 + a.length + 1 ≤ s.capacity
      omega
  | cksumErr _ _ hc => exact ⟨rfl, rfl, rfl, .inr ⟨rfl, hc⟩⟩
  | _ => exact ⟨rfl, rfl, rfl, .inl h⟩

/-- A sequence of answers that brings no byte answers nothing. -/
theorem tailAnswer_of_quiet {r : RxTail} (h : tailBrings r = false) : tailAnswer r = .noData := by
  cases r with
  | silent => rfl
  | repeats a rest =>
    cases a with
    | noData => rfl
    | byte b => simp [tailBrings, unreadBytes] at h
  | free k n => cases h

/-- A micro-step that does not return does some of the work, while no endless sequence of answers brings bytes. -/
theorem micro_work {s t : State} (hq : tailBrings s.rxAfter = false) (h : Micro s t) (hs : t.serving = true) :
    t.work < s.work ∧ tailBrings t.rxAfter = false := by
  cases h with
  | noData _ _ => cases hs
  | stall _ _ _ _ _ => cases hs
  | byte b t h hr ha =>
    obtain ⟨h1, h2, h3, h4⟩ := accepts_work (by exact h) ha
    cases hx : s.rx with
    | nil => rw [(rxAnswer_nil hx).1, tailAnswer_of_quiet hq] at hr; cases hr
    | cons a rest =>
      rw [(rxAnswer_cons hx).2] at h1 h2 h3
      have h1 : t.rx = rest := h1
      have h2 : t.rxAfter = s.rxAfter := h2
      have h3 : t.capacity = s.capacity := h3
      refine ⟨?_, h2 ▸ hq⟩
      simp only [State.work, h1, h3, h, hx, List.length_cons, Nat.succ_mul]
      rcases h4 with h4 | ⟨h4, h5⟩ <;> simp only [h4] <;> omega
  | part k n h hk hc hw h0 hn => exact ⟨by simp only [State.work, h]; omega, hq⟩
  | done k h hk hc hw => exact ⟨by simp only [State.work, h]; omega, hq⟩

/-- A `service` call that is given the patience of R95's `svc` is never cut: it returns (R167), where no endless
sequence of answers brings bytes. -/
theorem service_returns {n : Nat} {s t : State} (hq : tailBrings s.rxAfter = false) (hn : s.work < n)
    (h : service n s = .next t) : t.serving = false := by
  induction n generalizing s with
  | zero => omega
  | succ n ih =>
    simp only [service] at h
    cases hm : microStep s with
    | fault f => simp [hm] at h
    | refused r => simp [hm] at h
    | next u =>
      simp only [hm] at h
      split at h
      · rename_i hu
        obtain ⟨h1, h2⟩ := micro_work hq (microStep_next.1 hm) hu
        exact ih h2 (by omega) h
      · rename_i hu
        cases h
        simpa using hu

theorem work_lt_patience (s : State) : s.work < s.patience := by
  unfold State.work State.patience
  split <;> omega

/-- `svc` is one whole `service` call, where no endless sequence of answers brings bytes. -/
theorem svc_returns {s t : State} (hq : tailBrings s.rxAfter = false) (h : performLine .svc s = .next t) :
    t.serving = false :=
  service_returns hq (work_lt_patience s) h

/-- The state after a call is the one its last micro-step left. -/
theorem service_lastMicro {n : Nat} {s t : State} (hn : 0 < n) (h : service n s = .next t)
    (ht : t.serving = false) : microStep (lastMicro n s) = .next t := by
  induction n generalizing s with
  | zero => omega
  | succ n ih =>
    simp only [service, lastMicro] at h ⊢
    cases hm : microStep s with
    | fault f => simp [hm] at h
    | refused r => simp [hm] at h
    | next u =>
      simp only [hm] at h ⊢
      split at h
      · rename_i hu
        simp only [hu]
        rcases Nat.eq_zero_or_pos n with rfl | h0
        · cases h; rw [hu] at ht; cases ht
        · exact ih h0 h
      · rename_i hu
        simp only [hu]
        cases h
        exact hm

/-- A micro-step that drains is the return of `service` in receive mode with nothing left to be read (R172). -/
theorem drains_next {s t : State} (h : drains (fetchMicro s) = true) (hm : microStep s = .next t) :
    t.serving = false ∧ t.txc = none ∧ bringsBytes t.rx t.rxAfter = false := by
  simp only [drains, Bool.and_eq_true, decide_eq_true_eq, Bool.not_eq_true'] at h
  unfold microStep at hm
  rw [h.1] at hm
  obtain ⟨h1, rfl⟩ := sRxNodata_next.1 hm
  exact ⟨rfl, h1, h.2⟩

/-- A run on a stimulus ends with `service` returned, the cursor `IDLE` and nothing left to be read (R172). -/
theorem svc_endsRun {rest : List StimulusLine} {s t : State} (h : StimulusLine.svc.endsRun rest s = true)
    (hs : performLine .svc s = .next t) (ht : t.serving = false) :
    t.txc = none ∧ bringsBytes t.rx t.rxAfter = false := by
  simp only [StimulusLine.endsRun, Bool.and_eq_true] at h
  exact (drains_next h.1 (service_lastMicro (Nat.succ_pos _) hs ht)).2

/-- A run by steps ends with `service` returned, the cursor `IDLE` and nothing left to be read (R172). -/
theorem runEnds_idle {s t : State} (h : RunEnds s t) :
    t.serving = false ∧ t.txc = none ∧ bringsBytes t.rx t.rxAfter = false := by
  obtain ⟨_, u, _, h1, h2, _⟩ := h
  simp only [State.endsRun, drains, Bool.and_eq_true, decide_eq_true_eq, Bool.not_eq_true'] at h1
  unfold step at h2
  rw [h1.1.1] at h2
  obtain ⟨h3, rfl⟩ := sRxNodata_next.1 h2
  exact ⟨rfl, h3, h1.1.2⟩

end Sys2Proof.Machine
end

