-- ==== Sys2Proof/Tests/Slice0.lean ====
section
/-! SUPPORT. The model's own tests. Expected values are those of spec/95_test_vectors.md (vector named at each
test) or of the rule named; then a state that meets the hypotheses of each statement. -/

namespace Sys2Proof.Tests

open Sys2Proof Sys2Proof.Machine

/-! ## Well-formedness: each check refuses a term -/

theorem test_check_skipOfStart : (Instr.pSkip 0x1B).check = some .skipOfStart := by decide
theorem test_check_badTokenOfToken : (Instr.pTokenBad 0x0E).check = some .badTokenOfToken := by decide
theorem test_check_responseLength : (Instr.dResp 0).check = some .responseLength := by decide
theorem test_check_armLength : (Instr.dArm 65536).check = some .armLength := by decide
theorem test_check_partialCount : (Instr.sTxPart 0).check = some .partialCount := by decide
theorem test_check_capacity : (Instr.reset 7 none).check = some .capacity := by decide
theorem test_check_frameLength : (Instr.frameReq 0 (List.replicate 65536 0)).check = some .frameLength := by
  rw [Instr.check, if_neg (by rw [List.length_replicate]; exact Nat.lt_irrefl _)]
theorem test_check_emptyResponse : (Instr.frameRsp 0 []).check = some .emptyResponse := by decide
theorem test_check_errorAsResponse : (Instr.frameRsp 5 [0xB0, 0xC1]).check = some .errorAsResponse := by decide
theorem test_check_accepts : ∀ i ∈ [Instr.pSkip 0x0E, .pTokenBad 0x1B, .dResp 65535, .dArm 1, .sTxPart 1,
    .reset 8 none, .frameReq 0 [], .frameRsp 5 [0xC1, 0xB0]], i.wellFormed = true := by decide

/-! ## Decoding: words written out from R90, R91, R92, R80 -/

theorem test_decode_pSync : decodeTableWord 16 0b000_0001_1011 = some .pSync := by decide
theorem test_decode_pSkip : decodeTableWord 16 0b000_0000_1110 = some (.pSkip 0x0E) := by decide
theorem test_decode_pSeq : decodeTableWord 16 0b001_0001_1011 = some (.pSeq 0x1B) := by decide
theorem test_decode_pLenh : decodeTableWord 16 0b010_0000_0001 = some (.pLenh 0x01) := by decide
theorem test_decode_pLenl : decodeTableWord 16 0b011_0010_1100 = some (.pLenl 0x2C) := by decide
theorem test_decode_pLenlDrop : decode .parser [0b0010_1100, 0b0000_1_011] = .ok (.pLenlDrop 0x2C) := by decide
theorem test_decode_pToken : decodeTableWord 16 0b100_0000_1110 = some .pToken := by decide
theorem test_decode_pTokenBad : decodeTableWord 16 0b100_0000_1111 = some (.pTokenBad 0x0F) := by decide
theorem test_decode_pData : decodeTableWord 16 0b101_1000_0001 = some (.pData 0x81) := by decide
theorem test_decode_pDataLast : decode .parser [0b1000_0001, 0b0000_1_101] = .ok (.pDataLast 0x81) := by decide
theorem test_decode_pCksumOk : decodeTableWord 16 0b110_0001_0011 = some (.pCksumOk 0x13) := by decide
theorem test_decode_pCksumErr : decode .parser [0b0001_0011, 0b0000_1_110] = .ok (.pCksumErr 0x13) := by decide
theorem test_decode_parserRejects : decode .parser [0x00, 0b0000_0_111] = .error .reservedState ∧
    decode .parser [0x00, 0b0000_1_001] = .error .guardOfUnguarded ∧
    decode .parser [0x00, 0b0001_0_000] = .error .parserKeyBits ∧ decode .parser [0x00] = .error .wordLength := by
  decide
theorem test_decode_dispatch :
    decode .dispatch [0b00, 0, 0] = .ok .dErr ∧ decode .dispatch [0b10, 0, 0] = .ok .dCall ∧
    decode .dispatch [0b111, 1, 0] = .ok (.dResp 1) ∧ decode .dispatch [0b110, 0, 0] = .ok .dNone ∧
    decode .dispatch [0b1000, 0x2C, 0x01] = .ok (.dArm 300) ∧
    decode .dispatch [0b111, 0, 0] = .error .operandRange ∧
    decode .dispatch [0b110, 1, 0] = .error .operandBits ∧ decode .dispatch [0b100, 0, 0] = .error .dispatchKey := by
  decide
theorem test_decode_driver : decodeTableWord 8 0b000 = some .sRxNodata ∧ decodeTableWord 8 0b100 = some .sTxStall ∧
    decodeTableWord 8 0b101 = some (.sTxPart 1) ∧ decodeTableWord 8 0b110 = some .sTxDone ∧
    decode .driver [0b001, 0x5A, 0, 0] = .ok (.sRxByte 0x5A) ∧
    decode .driver [0b010, 0, 0, 0] = .error .driverKey ∧ decode .driver [0b111, 0, 0, 0] = .error .driverKey := by
  decide
theorem test_decode_reset : decode .reset [0x08, 0x00, 0x00] = .ok (.reset 8 none) ∧
    decode .reset [0x05, 0x00, 0x01] = .ok (.reset 65541 none) ∧
    decode .reset [0x07, 0x00, 0x00] = .error .operandRange := by decide
/-- V1's request, and V10's of length zero. -/
theorem test_decode_frameReq :
    decode .rxFrame [0x1B, 0x05, 0x00, 0x03, 0x0E, 0x01, 0x02, 0x03, 0x13] = .ok (.frameReq 5 [1, 2, 3]) ∧
    decode .rxFrame [0x1B, 0x05, 0x00, 0x00, 0x0E, 0x10] = .ok (.frameReq 5 []) := by decide
/-- V1's response; a response of length zero is never sent (R86). -/
theorem test_decode_frameRsp :
    decode .txFrame [0x1B, 0x05, 0x00, 0x01, 0x0E, 0x7F, 0x6E] = .ok (.frameRsp 5 [0x7F]) ∧
    decode .txFrame [0x1B, 0x05, 0x00, 0x00, 0x0E, 0x10] = .error .frameLength := by decide
/-- V2, `ss = 05`. -/
theorem test_decode_frameErr :
    decode .txFrame [0x1B, 0x05, 0x00, 0x02, 0x0E, 0xB0, 0xC1, 0x63] = .ok (.frameErr 5) := by decide
/-- V1's request damaged in each part (V3, V5, V16). -/
theorem test_decode_frameRejects :
    decode .rxFrame [0x1A, 0x05, 0x00, 0x03, 0x0E, 0x01, 0x02, 0x03, 0x13] = .error .frameStart ∧
    decode .rxFrame [0x1B, 0x05, 0x00, 0x03, 0x0F, 0x01, 0x02, 0x03, 0x12] = .error .frameToken ∧
    decode .rxFrame [0x1B, 0x05, 0x00, 0x02, 0x0E, 0x01, 0x02, 0x03, 0x13] = .error .frameLength ∧
    decode .rxFrame [0x1B, 0x05, 0x00, 0x03, 0x0E, 0x01, 0x02, 0x03, 0x12] = .error .frameChecksum := by decide
theorem test_encode_frames :
    encode (.frameReq 0x80 [0x30, 0x31]) = some (.rxFrame, [0x1B, 0x80, 0x00, 0x02, 0x0E, 0x30, 0x31, 0x96]) ∧
    encode (.frameErr 0x1B) = some (.txFrame, [0x1B, 0x1B, 0x00, 0x02, 0x0E, 0xB0, 0xC1, 0x7D]) := by decide

/-! ## Single steps -/

/-- The next state, if there is one. -/
def after (r : Result) : Option State :=
  match r with
  | .next t => some t
  | .fault _ => none
  | .refused _ => none

/-- A Processor that answers every call alike and keeps its state. -/
def always (writes : List Host.Cell) (r : Nat) : List ProcCase := [⟨none, .anything, ⟨writes, r, none⟩⟩]

/-- The state after reset, in a parser state. -/
def inState (st : ParserState) : State := { State.reset with st := st }

/-- V1 after its first `n` bytes, from row `n` of its trace: `n = 8` and then the checksum byte. -/
def v1Cksum : State :=
  { State.reset with
    st := .waitCksum, ck := 0x13, seq := 5, len := 3, cnt := 3, buf := [(5, 1), (6, 2), (7, 3)]
    proc := always [(0, 0x7F)] 1
    trace := [0x1B, 5, 0, 3, 0x0E, 1, 2, 3].map .consumed }

/-- V1 after six bytes: in the payload. -/
def v1Data : State :=
  { State.reset with
    st := .data, ck := 0x12, seq := 5, len := 3, cnt := 1, buf := [(5, 1)]
    trace := [0x1B, 5, 0, 3, 0x0E, 1].map .consumed }

/-- V30 after its second `svc`: the response of V1, two bytes accepted. -/
def sending : State :=
  { State.reset with
    ck := 0x6E, seq := 5, len := 3, cnt := 3, txc := some 2, txlen := 7
    buf := [(0, 0x1B), (1, 5), (3, 1), (4, 0x0E), (5, 0x7F), (6, 0x6E), (7, 3)]
    trace := [.accepted [0x1B], .accepted [0x05]] }

/-- The response of V1, nothing accepted yet. -/
def pending : State := { sending with txc := some 0, trace := [] }

/-- V1 row 1. -/
theorem test_pSync : (after (exec .pSync (inState .start))).map (fun t => (t.st, t.ck)) =
    some (.waitSeq, 0x1B) := by decide
/-- V9: a token byte in state START is noise. -/
theorem test_pSkip : after (exec (.pSkip 0x0E) (inState .start)) = some (inState .start) := by decide
/-- V14: 0x1B as SEQ. -/
theorem test_pSeq : (after (exec (.pSeq 0x1B) { inState .waitSeq with ck := 0x1B })).map
    (fun t => (t.st, t.ck, t.seq)) = some (.waitLenMsb, 0x00, 0x1B) := by decide
/-- V13: LEN_HI 01; the whole of LEN is rewritten. -/
theorem test_pLenh : (after (exec (.pLenh 0x01) { inState .waitLenMsb with ck := 0x1B, len := 0xABCD })).map
    (fun t => (t.st, t.ck, t.len)) = some (.waitLenLsb, 0x1A, 0x0100) := by decide
/-- V1 row 4. -/
theorem test_pLenl : (after (exec (.pLenl 0x03) { inState .waitLenLsb with ck := 0x1E, cnt := 9 })).map
    (fun t => (t.st, t.ck, t.len, t.cnt)) = some (.waitToken, 0x1D, 3, 0) := by decide
/-- V8: `LEN = MAXP + 1`. -/
theorem test_pLenlDrop : (after (exec (.pLenlDrop 0x0B) { inState .waitLenLsb with ck := 0x9B, cnt := 9 })).map
    (fun t => (t.st, t.ck, t.len, t.cnt)) = some (.start, 0x90, 0x000B, 0) := by decide
/-- V1 row 5. -/
theorem test_pToken : (after (exec .pToken { inState .waitToken with ck := 0x1D })).map
    (fun t => (t.st, t.ck)) = some (.data, 0x13) := by decide
/-- V5: `CK` is not updated. -/
theorem test_pTokenBad : (after (exec (.pTokenBad 0x0F) { inState .waitToken with ck := 0x1D })).map
    (fun t => (t.st, t.ck)) = some (.start, 0x1D) := by decide
/-- V1 row 6. -/
theorem test_pData : (after (exec (.pData 1) { inState .data with ck := 0x13, len := 3 })).map
    (fun t => (t.st, t.ck, t.cnt, t.buf)) = some (.data, 0x12, 1, [(5, 1)]) := by decide
/-- V1 row 8. -/
theorem test_pDataLast : (after (exec (.pDataLast 3) { v1Data with ck := 0x10, cnt := 2 })).map
    (fun t => (t.st, t.ck, t.cnt, Memory.read t.buf 7)) = some (.waitCksum, 0x13, 3, 3) := by decide
/-- V1 row 9, with the stale third request byte at `BUF[7]`. -/
theorem test_pCksumOk : (after (exec (.pCksumOk 0x13) v1Cksum)).map
    (fun t => (t.st, t.ck, t.txc, t.txlen, Memory.slice t.buf 0 8)) =
      some (.start, 0x6E, some 0, 7, [0x1B, 5, 0, 1, 0x0E, 0x7F, 0x6E, 3]) := by decide
/-- V3, `<last> = 1B`. -/
theorem test_pCksumErr : (after (exec (.pCksumErr 0x1B) v1Cksum)).map
    (fun t => (t.st, t.ck, t.txc, t.txlen, t.offered 0)) =
      some (.start, 0x63, some 0, 8, [0x1B, 5, 0, 2, 0x0E, 0xB0, 0xC1, 0x63]) := by decide
/-- V22: `ERRFRAME(09)` fills a buffer of 8 exactly. -/
theorem test_dErr : (after (exec .dErr { State.reset with capacity := 8, ck := 0x0C, seq := 9 })).map
    (fun t => (t.txlen, Memory.slice t.buf 0 8)) =
      some (8, [0x1B, 9, 0, 2, 0x0E, 0xB0, 0xC1, 0x6F]) := by decide
/-- V20: the Processor declines; no header is written. -/
theorem test_dCall : (after (exec .dCall { State.reset with
      len := 1, seq := 9, buf := [(5, 0x42)], proc := always [] 0 })).map
    (fun t => (t.txc, t.buf, t.trace)) = some (none, [(5, 0x42)], [.called [0x42] 0 []]) := by decide
/-- R184 (c): the response bytes the Processor does not write are the request's. -/
theorem test_dCall_unwritten : (after (exec .dCall { State.reset with
      len := 1, seq := 9, buf := [(5, 0x42)], proc := always [] 1 })).map
    (fun t => (t.txc, t.offered 0)) = some (some 0, [0x1B, 9, 0, 1, 0x0E, 0x42, 0x5F]) := by decide
/-- V23, first instance. -/
theorem test_dResp : (after (exec (.dResp 1) { State.reset with seq := 5, buf := [(5, 0x7F)] })).map
    (fun t => (t.ck, t.txlen, t.offered 0)) = some (0x6E, 7, [0x1B, 5, 0, 1, 0x0E, 0x7F, 0x6E]) := by decide
theorem test_dNone : after (exec .dNone State.reset) = some State.reset := by decide
/-- V23, second instance. -/
theorem test_dArm : (after (exec (.dArm 2) { State.reset with seq := 0x21, buf := [(5, 0xB0), (6, 0xC1)] })).map
    (fun t => (t.ck, t.txlen, t.offered 0)) =
      some (0x47, 8, [0x1B, 0x21, 0, 2, 0x0E, 0xB0, 0xC1, 0x47]) := by decide
/-- V23, third instance: LEN_HI and LEN_LO of 300. -/
theorem test_dArm_long : (after (exec (.dArm 300) { State.reset with capacity := 306 })).map
    (fun t => (t.ck, t.txlen, Memory.slice t.buf 0 5)) =
      some (0x38, 306, [0x1B, 0x00, 0x01, 0x2C, 0x0E]) := by decide +kernel
/-- V31: nothing to read. -/
theorem test_sRxNodata : after (step State.reset) = some State.reset := by decide
/-- V31: a byte read is consumed and parsed. -/
theorem test_sRxByte : (after (exec (.sRxByte 0x1B) State.reset)).map (fun t => (t.st, t.ck, t.serving, t.trace)) =
    some (.waitSeq, 0x1B, true, [.consumed 0x1B]) := by decide
/-- V30: the cursor stays. -/
theorem test_sTxStall : after (exec .sTxStall { sending with serving := true }) = some sending := by decide
/-- V30: one byte accepted. -/
theorem test_sTxPart : (after (exec (.sTxPart 1) pending)).map (fun t => (t.txc, t.trace)) =
    some (some 1, [.accepted [0x1B]]) := by decide
/-- V30: the last five bytes. -/
theorem test_sTxDone : (after (exec .sTxDone sending)).map (fun t => (t.txc, t.transmitted)) =
    some (none, [0x1B, 5, 0, 1, 0x0E, 0x7F, 0x6E]) := by decide
/-- V40. -/
theorem test_reset : (after (exec (.reset 8 none) v1Data)).map (fun t => (t.capacity, t.maxp, t.st, t.txc)) =
    some (8, 2, .start, none) := by decide
theorem test_reset_refused : after (exec (.reset 7 none) v1Data) = none ∧
    after (exec (.reset 65542 none) v1Data) = none := by decide
/-- V1's request in the receive stream. -/
theorem test_frameReq : (after (exec (.frameReq 5 [1, 2, 3]) State.reset)).map (·.rx) =
    some ([0x1B, 5, 0, 3, 0x0E, 1, 2, 3, 0x13].map .byte) := by decide
/-- V1's response in the transmit stream. -/
theorem test_frameRsp : (after (exec (.frameRsp 5 [0x7F]) pending)).map (fun t => (t.txc, t.transmitted)) =
    some (none, [0x1B, 5, 0, 1, 0x0E, 0x7F, 0x6E]) := by decide
/-- The pending frame is not the error response. -/
theorem test_frameErr : after (exec (.frameErr 5) pending) = none ∧
    ((after (exec (.pCksumErr 0x1B) v1Cksum)).bind fun s => (after (exec (.frameErr 5) s)).map (·.transmitted)) =
      some [0x1B, 5, 0, 2, 0x0E, 0xB0, 0xC1, 0x63] := by decide

/-- V24. -/
theorem test_xorAll : xorAll [0x1B, 5, 0, 3, 0x0E, 1, 2, 3] = 0x13 ∧ xorAll [] = 0 ∧
    xorAll [0x1B, 0x02, 0x0E, 0xB0, 0xC1] = 0x66 := by decide
/-- R186: the Processor's state selects the answer and is what the last answer made it. -/
theorem test_dCall_state : (after (exec .dCall { State.reset with
      len := 1, procState := 4
      proc := [⟨some 3, .anything, ⟨[], 0, some 9⟩⟩, ⟨some 4, .region 1 (List.replicate 10 0), ⟨[], 0, some 3⟩⟩] })).map
    (·.procState) = some 3 := by decide

/-! ## Stimuli (R95) and the end of a run (R172) -/

/-- V31: the first `svc` does not end the run, bytes are still to come; the second does, in the middle of a frame. -/
theorem test_stimulus_V31 :
    (match runStimulus [.svc, .rx [0x1B, 0x05, 0x00], .svc, .svc] State.reset with
      | .ended t => some (t.st, t.ck, t.seq, t.len)
      | _ => none) = some (.waitLenLsb, 0x1E, 5, 0) ∧
    runStimulus [.rx [0x1B, 0x05, 0x00]] State.reset =
      .unfinished { State.reset with rx := [.byte 0x1B, .byte 0x05, .byte 0x00] } := by decide

/-- V33, the answers given in the order opposite to that of the requests: each goes with its payload. -/
theorem test_stimulus_V33 :
    (match runStimulus [.rx [0x1B, 1, 0, 1, 0x0E, 0xAA, 0xBF, 0x1B, 2, 0, 2, 0x0E, 0xBB, 0xCC, 0x62],
        .proc [0xBB, 0xCC] [0x44, 0x33], .proc [0xAA] [0x55], .svc] State.reset with
      | .ended t => some (t.transmitted, t.ck, t.seq, t.len, t.cnt, t.txlen)
      | _ => none) =
    some ([0x1B, 1, 0, 1, 0x0E, 0x55, 0x40, 0x1B, 2, 0, 2, 0x0E, 0x44, 0x33, 0x62], 0x62, 2, 2, 2, 8) := by
  decide +kernel

/-- V34: the response of V1 never drains and the second request is never read. -/
theorem test_stimulus_V34 :
    (match runStimulus [.rx [0x1B, 5, 0, 3, 0x0E, 1, 2, 3, 0x13, 0x1B, 6, 0, 1, 0x0E, 9, 0x1B],
        .proc [1, 2, 3] [0x7F], .wrForEver 0, .svc, .svc] State.reset with
      | .neverEnds p t => some (p, t.txc, t.txlen, t.rx.length)
      | _ => none) = some ([0x1B, 5, 0, 1, 0x0E, 0x7F, 0x6E], some 0, 7, 7) := by decide +kernel

/-- R168: the error response of V3 drained and the frame read again and again; a call cut after 40 micro-steps is
still going on. -/
theorem test_endless : (after (service 40 { State.reset with
      rxAfter := .repeats (.byte 0x1B) ([5, 0, 3, 0x0E, 1, 2, 3, 0x12].map .byte) })).map
    (fun t => (t.serving, t.consumedBytes.length, t.transmitted.length, t.rxAfter)) =
      some (true, 36, 32, .repeats (.byte 0x1B) ([5, 0, 3, 0x0E, 1, 2, 3, 0x12].map .byte)) := by decide +kernel

/-- An endless silence ends a run, an endless stream does not: the `svc` has not returned. -/
theorem test_stimulus_endless :
    { State.reset with rxAfter := .repeats .noData [.noData] }.endsRun = true ∧
    { State.reset with rxAfter := .repeats .noData [.byte 0] }.endsRun = false ∧
    (match runStimulus [.svc, .svc] { State.reset with rxAfter := .repeats (.byte 0) [] } with
      | .inService t => some (t.serving, t.consumedBytes)
      | _ => none) = some (true, [0]) := by decide

/-- A construction over a stalled response is no end of a run. -/
theorem test_endsRun : State.reset.endsRun = true ∧ sending.endsRun = false ∧
    { State.reset with schedule := [.construct 8 none] }.endsRun = false ∧
    { State.reset with rx := [.noData] }.endsRun = true ∧
    { State.reset with rx := [.noData, .byte 0] }.endsRun = false ∧
    { State.reset with schedule := [.framer, .peerSends 0 []] }.endsRun = false := by decide

/-- Memory: a byte equal to what an unlisted address reads as is removed. -/
theorem test_memory_canonical : Memory.write [(5, 1), (7, 3)] 6 2 = [(5, 1), (6, 2), (7, 3)] ∧
    Memory.write [(5, 1), (7, 3)] 5 0 = [(7, 3)] ∧ Memory.wf [(7, 3), (5, 1)] = false ∧
    Memory.wf [(5, 0)] = false := by decide

/-! ## Witnesses: states and operands that meet the hypotheses of the statements

Where a statement has clauses or ranges, one at each boundary. -/

/-- V1's byte 5 onward: the payload of `v1Data` and a rest of the request. -/
def v1Rest : List Byte := [2, 3, 0x13]

/-- What an idle state needs for the invariants. -/
theorem inv_of_idle {s : State} (hc : capacityValid s.capacity = true) (hw : Memory.wf s.buf = true)
    (hb : ∀ c ∈ s.buf, c.1 < s.capacity) (hn : s.cnt < 65536) (hl : s.txlen < 131072) (hst : s.st = .start)
    (ht : s.txc = none) : Inv s where
  capacity := hc
  memory := hw
  bounded := hb
  countWidth := hn
  txlenWidth := hl
  cursor k hk := by simp [ht] at hk
  interlock h := absurd ht h
  length h := by simp [State.inPayload, hst] at h
  countToken h := by simp [hst] at h
  countData h := by simp [hst] at h
  countCksum h := by simp [hst] at h
  checksum h := absurd hst h
  payload h := by simp [hst] at h
  response k hk := by simp [ht] at hk

/-- An idle state about to receive `bytes`, whose Processor will answer `a`. -/
def receiving (bytes : List Byte) (a : ProcAnswer) : State :=
  { State.reset with rx := bytes.map .byte, proc := [⟨none, .anything, a⟩] }

theorem inv_receiving (bytes : List Byte) (a : ProcAnswer) : Inv (receiving bytes a) :=
  inv_of_idle (by decide : capacityValid 16 = true) rfl (by intro c h; cases h)
    (by decide : 0 < 65536) (by decide : 0 < 131072) rfl rfl

/-- The invariants do not depend on what the environment will answer. -/
theorem inv_answers {s : State} (h : Inv s) (rx : List RxAnswer) (proc : List ProcCase) :
    Inv { s with rx := rx, proc := proc } :=
  ⟨h.capacity, h.memory, h.bounded, h.countWidth, h.txlenWidth, h.cursor, h.interlock, h.length, h.countToken,
    h.countData, h.countCksum, h.checksum, h.payload, h.response⟩

/-- The invariants in the middle of a payload. -/
theorem inv_v1Data : Inv v1Data where
  capacity := by decide
  memory := by decide
  bounded := by decide
  countWidth := by decide
  txlenWidth := by decide
  cursor k hk := by cases hk
  interlock h := absurd rfl h
  length _ := by decide
  countToken h := by cases h
  countData _ := by decide
  countCksum h := by cases h
  checksum _ := by decide
  payload _ := by decide
  response k hk := by cases hk

/-- The invariants with the checksum byte awaited. -/
theorem inv_v1Cksum : Inv v1Cksum where
  capacity := by decide
  memory := by decide
  bounded := by decide
  countWidth := by decide
  txlenWidth := by decide
  cursor k hk := by cases hk
  interlock h := absurd rfl h
  length _ := by decide
  countToken h := by cases h
  countData h := by cases h
  countCksum _ := by decide
  checksum _ := by decide
  payload _ := by decide
  response k hk := by cases hk

/-- The invariants in the middle of a transmission. -/
theorem inv_sending : Inv sending where
  capacity := by decide
  memory := by decide
  bounded := by decide
  countWidth := by decide
  txlenWidth := by decide
  cursor k hk := by cases hk; decide
  interlock _ := rfl
  length h := by simp [State.inPayload, sending, State.reset] at h
  countToken h := by cases h
  countData h := by cases h
  countCksum h := by cases h
  checksum h := absurd rfl h
  payload h := by simp [sending, State.reset] at h
  response k hk := by cases hk; exact ⟨⟨[0x7F], by decide⟩, by decide, by decide⟩

theorem test_witness_parser_states :
    (∀ st, (inState st).txc = none ∧ (inState st).st = st) ∧ (0x1A : Byte) ≠ 0x1B ∧ (0x1B : Byte) ≠ 0x0E := by
  refine ⟨fun st => ⟨rfl, rfl⟩, by decide, by decide⟩

/-- LengthLowByteAccepted at lengths 1 and `MAXP` = 10, LengthLowByteRejected at 0, `MAXP + 1` and 65535. -/
theorem test_witness_LengthLowByte :
    (∀ b ∈ [(1 : Byte), 10], 0 < ((inState .waitLenLsb).len ||| b.setWidth 16).toNat ∧
      ((inState .waitLenLsb).len ||| b.setWidth 16).toNat ≤ (inState .waitLenLsb).capacity - 6) ∧
    ((inState .waitLenLsb).len ||| (0 : Byte).setWidth 16).toNat = 0 ∧
    (inState .waitLenLsb).capacity - 6 < ((inState .waitLenLsb).len ||| (11 : Byte).setWidth 16).toNat ∧
    16 - 6 < (0xFF00 ||| (0xFF : Byte).setWidth 16 : Length).toNat := by decide

/-- PayloadByteStored at the last byte but one; LastPayloadByteStored at the last byte of the longest payload. -/
theorem test_witness_PayloadByteStored :
    (v1Data.txc = none ∧ v1Data.st = .data ∧ v1Data.cnt + 1 < v1Data.len.toNat ∧
      v1Data.cnt + 2 = v1Data.len.toNat ∧ v1Data.len.toNat ≤ v1Data.maxp ∧ Memory.wf v1Data.buf = true) ∧
    (let s := { inState .data with cnt := 9, len := 10 };
      s.txc = none ∧ s.st = .data ∧ s.cnt + 1 = s.len.toNat ∧ s.len.toNat ≤ s.maxp ∧ s.len.toNat = s.maxp ∧
        Memory.wf s.buf = true) := by decide

/-- GoodChecksumCallsProcessor with `R = 0`, `R = 1` and `R = MAXP`, and with the free Processor. -/
theorem test_witness_GoodChecksumCallsProcessor :
    (v1Cksum.txc = none ∧ v1Cksum.st = .waitCksum ∧ (0x13 : Byte) = v1Cksum.ck ∧
      v1Cksum.len.toNat ≤ v1Cksum.maxp ∧ Memory.wf v1Cksum.buf = true) ∧
    (∀ r ∈ [0, 1, 10], answerFits v1Cksum.maxp ⟨[(0, 7), (9, 7)], r, none⟩ = true ∧
      { v1Cksum with proc := always [(0, 7), (9, 7)] r }.answeredBy ⟨[(0, 7), (9, 7)], r, none⟩) ∧
    (let s := { v1Cksum with proc := [] };
      s.answeredBy s.freeAnswer ∧ answerFits s.maxp s.freeAnswer = true) := by
  refine ⟨by decide, ?_, answeredBy_iff.2 rfl, freeAnswer_fits _⟩
  intro r hr
  refine ⟨?_, answeredBy_iff.2 rfl⟩
  revert r
  decide

theorem test_witness_BadChecksumArmsErrorResponse :
    v1Cksum.ck ^^^ 0x12 ≠ 0 ∧ capacityValid v1Cksum.capacity = true ∧ Memory.wf v1Cksum.buf = true := by decide

/-- SelectorPicksTableRow, the two clauses of state DATA, each at its boundary. -/
theorem test_witness_SelectorPicksTableRow :
    (v1Data.st = .data ∧ v1Data.cnt + 2 = v1Data.len.toNat) ∧
    (let s := { v1Data with cnt := 2 };
      s.st = .data ∧ s.cnt + 1 = s.len.toNat) := by decide

theorem test_witness_EveryByteIsAccepted :
    Inv v1Cksum ∧ v1Cksum.txc = none ∧ v1Cksum.processorKeepsContract :=
  ⟨inv_v1Cksum, rfl, by intro c h; cases List.mem_singleton.1 h; decide⟩

theorem test_witness_NoParsingWhileTransmitting : sending.txc = some 2 := rfl

theorem test_witness_ErrorResponseBuilt :
    let s := { State.reset with capacity := 8, ck := 0x0C, seq := 9 }
    s.txc = none ∧ s.ck ≠ 0 ∧ capacityValid s.capacity = true ∧ Memory.wf s.buf = true := by decide

theorem test_witness_ProcessorCallCompletes :
    let s := { v1Cksum with st := .start, ck := 0 }
    s.txc = none ∧ s.ck = 0 ∧ s.len.toNat ≤ s.maxp ∧ s.answeredBy ⟨[(0, 0x7F)], 1, none⟩ ∧
      answerFits s.maxp ⟨[(0, 0x7F)], 1, none⟩ = true ∧ Memory.wf s.buf = true :=
  ⟨rfl, rfl, by decide, answeredBy_iff.2 rfl, by decide, by decide⟩

/-- ResponseFramed and ArmFramesPayload at lengths 1 and `MAXP`, ArmLengthOutsideRangeRefused at 0 and
`MAXP + 1`. -/
theorem test_witness_armLengths :
    v1Data.txc = none ∧ Memory.wf v1Data.buf = true ∧ (∀ n ∈ [1, 10], 0 < n ∧ 1 ≤ n ∧ n ≤ v1Data.maxp) ∧
      v1Data.maxp < 11 := by decide

theorem test_witness_ArmedFrameIsWellFormed :
    Memory.wf v1Data.buf = true ∧ capacityValid v1Data.capacity = true ∧
      ∃ t, exec (.dArm 10) v1Data = .next t := ⟨by decide, by decide, _, rfl⟩

/-- Each breach: one byte too long, and a write at the first offset outside the region. -/
theorem test_witness_ProcessorBreachFaults :
    (let s := { State.reset with len := 1, proc := always [] 11 };
      s.txc = none ∧ s.ck = 0 ∧ s.len.toNat ≤ s.maxp ∧ s.answeredBy ⟨[], 11, none⟩ ∧ s.maxp < 11 ∧
        after (exec .dCall s) = none) ∧
    (let s := { State.reset with len := 1, proc := always [(10, 0)] 10 };
      s.txc = none ∧ s.ck = 0 ∧ s.len.toNat ≤ s.maxp ∧ s.answeredBy ⟨[(10, 0)], 10, none⟩ ∧ 10 ≤ s.maxp ∧
        s.maxp ≤ 10 ∧ after (exec .dCall s) = none) :=
  ⟨⟨rfl, rfl, by decide, answeredBy_iff.2 rfl, by decide, by decide⟩,
    rfl, rfl, by decide, answeredBy_iff.2 rfl, by decide, by decide, by decide⟩

/-- StallReturns, CompleteWriteReturnsToReceive, and ShortWriteAdvancesCursor at its two ends. -/
theorem test_witness_writes :
    sending.txc = some 2 ∧ 2 < sending.txlen ∧ sending.txlen ≤ sending.capacity ∧
      ∀ n ∈ [1, 4], 0 < n ∧ n < sending.txlen - 2 := by decide

theorem test_witness_NoDataReturns : v1Data.txc = none := rfl

theorem test_witness_ServiceReturnsOnlyOnStall :
    (State.reset.schedule = [] ∧ ∃ t, step State.reset = .next t ∧ t.serving = false) ∧
    (sending.schedule = [] ∧ ∃ t, step sending = .next t ∧ t.serving = true) :=
  ⟨⟨rfl, _, rfl, rfl⟩, rfl, _, rfl, rfl⟩

/-- The second clause: a good frame without an end, listed first and repeated, and writes of one byte and of all. -/
theorem test_witness_ServiceReturnsOnlyOnStall_endless :
    let s := { receiving [0x1B, 5] ⟨[(0, 7)], 1, none⟩ with
      rxAfter := .repeats (.byte 0x1B) [.byte 0], wr := [1, 2], wrAfter := some 1 }
    Inv s ∧ s.processorKeepsContract ∧ s.fedWithoutEnd ∧ s.neverRefused := by
  refine ⟨inv_of_idle (by decide : capacityValid 16 = true) rfl (by intro c h; cases h) (by decide : 0 < 65536)
    (by decide : 0 < 131072) rfl rfl, ?_, ⟨by decide, by unfold tailSends; decide⟩, by decide, by decide⟩
  intro c h
  cases List.mem_singleton.1 h
  decide

theorem test_witness_HalfDuplexInterlock :
    sending.schedule = [] ∧ sending.txc = some 2 ∧ ∃ t, step sending = .next t := ⟨rfl, rfl, _, rfl⟩

/-- Construction at both ends of the range, InvalidCapacityRefused just outside them, and inside a call. -/
theorem test_witness_construction :
    v1Data.serving = false ∧ (∀ c ∈ [8, 65541], 8 ≤ c ∧ c ≤ 65541) ∧ (∀ c ∈ [7, 65542], c < 8 ∨ 65541 < c) ∧
      { v1Data with serving := true }.serving = true := by decide

theorem test_witness_RequestJoinsReceiveStream : ([] : List Byte).length < 65536 ∧ [1, 2, 3].length < 65536 := by
  decide

theorem test_witness_ResponseJoinsTransmitStream :
    pending.txc = some 0 ∧ pending.txlen = [0x7F].length + 6 ∧ pending.txlen ≤ pending.capacity ∧
      Memory.slice pending.buf 0 pending.txlen = frameBytes 5 [0x7F] := by decide

theorem test_witness_ErrorResponseJoinsTransmitStream :
    let s := { pending with txlen := 8, buf := [(0, 0x1B), (1, 5), (3, 2), (4, 0x0E), (5, 0xB0), (6, 0xC1), (7, 0x63)] }
    s.txc = some 0 ∧ s.txlen = 8 ∧ s.txlen ≤ s.capacity ∧
      Memory.slice s.buf 0 8 = [0x1B, 5, 0x00, 0x02, 0x0E, 0xB0, 0xC1, 0x66 ^^^ 5] := by decide

theorem test_witness_FrameFormatIsExact :
    decodeFrame [0x1B, 5, 0, 1, 0x0E, 0x7F, 0x6E] = .ok (5, [0x7F]) ∧
      decodeFrame [0x1B, 5, 0, 0, 0x0E, 0x10] = .ok (5, []) := by decide

theorem test_witness_SingleByteErrorLeavesResidue :
    ∃ h : 8 < (frameBytes 5 [1, 2, 3]).length, (0x12 : Byte) ≠ (frameBytes 5 [1, 2, 3])[8] :=
  ⟨by decide, by decide⟩

theorem test_witness_StepRunsDecodedOperation :
    (let s := { v1Data with rx := [.byte 2] };
      s.schedule = [] ∧ s.txc = none ∧ keyOf s 2 = some [2, 5] ∧ s.rx = .byte 2 :: []) ∧
    (let s := { v1Data with rxAfter := .repeats (.byte 2) [] };
      s.schedule = [] ∧ s.txc = none ∧ keyOf s 2 = some [2, 5] ∧ s.rx = [] ∧ tailAnswer s.rxAfter = .byte 2) ∧
    decode .parser [2, 5] = .ok (.pData 2) := by decide

/-- The writes of StepRunsFetchedOperation: a limit of nothing, of one, of all but one and of all that is left. -/
theorem test_witness_StepRunsFetchedOperation :
    (∀ m ∈ [0, 1, 4, 5], let s := { sending with wr := [m] };
      s.schedule = [] ∧ s.txc = some 2 ∧ 2 < s.txlen ∧ s.wr = m :: []) ∧
    (∀ m ∈ [0, 1, 4, 5], let s := { sending with wrAfter := some m };
      s.schedule = [] ∧ s.txc = some 2 ∧ 2 < s.txlen ∧ s.wr = [] ∧ s.wrAfter = some m) ∧
    (sending.schedule = [] ∧ sending.txc = some 2 ∧ sending.wr = [] ∧ sending.wrAfter = none) ∧
    (let s := { State.reset with rx := [.noData] }; s.schedule = [] ∧ s.txc = none ∧ s.rx = .noData :: []) ∧
    (let s := { State.reset with schedule := [.framer, .peerSends 5 [1], .construct 8 none] };
      s.schedule = .framer :: s.schedule.tail) ∧
    (State.reset.schedule = [] ∧ State.reset.txc = none ∧ State.reset.rx = [] ∧ State.reset.rxAfter = .silent) ∧
    (let s := { State.reset with rxAfter := .repeats .noData [.byte 2] };
      s.schedule = [] ∧ s.txc = none ∧ s.rx = [] ∧ tailAnswer s.rxAfter = .noData) := by decide

theorem test_witness_DecodeInvertsEncode :
    (Instr.dArm 300).wellFormed = true ∧ encode (.dArm 300) = some (.dispatch, [8, 0x2C, 0x01]) ∧
      (Instr.frameErr 0x66).wellFormed = true ∧
      encode (.frameErr 0x66) = some (.txFrame, [0x1B, 0x66, 0, 2, 0x0E, 0xB0, 0xC1, 0x00]) := by decide

theorem test_witness_EncodeInvertsDecode : decode .parser [0xFF, 14] = .ok (.pCksumErr 0xFF) := by decide

/-- In the middle of a payload, with a response partly sent, and idle. -/
theorem test_witness_InvariantsKeptByEveryStep :
    (Inv v1Data ∧ ∃ t, step v1Data = .next t) ∧ (Inv sending ∧ ∃ t, step sending = .next t) ∧
      ∃ t, Inv (receiving [0x1B] ⟨[], 0, none⟩) ∧ step (receiving [0x1B] ⟨[], 0, none⟩) = .next t :=
  ⟨⟨inv_v1Data, _, rfl⟩, ⟨inv_sending, _, rfl⟩, _, inv_receiving _ _, rfl⟩

theorem test_witness_NoAccessOutsideBuffer : Inv sending := inv_sending

theorem test_witness_EngineNeverStops :
    Inv v1Cksum ∧ v1Cksum.schedule = [] ∧ v1Cksum.processorKeepsContract :=
  ⟨inv_v1Cksum, rfl, by intro c h; cases List.mem_singleton.1 h; decide⟩

/-- Each of the three ways. -/
theorem test_witness_SeqWrittenOnlyByPSeq :
    (∃ t, exec (.pSeq 5) (inState .waitSeq) = .next t ∧ t.seq ≠ (inState .waitSeq).seq) ∧
    (∃ t, exec (.sRxByte 5) (inState .waitSeq) = .next t ∧ t.seq ≠ (inState .waitSeq).seq) ∧
    (let s := { State.reset with seq := Config.resetSeq 1 ^^^ 1 };
      ∃ t, exec (.reset 8 none) s = .next t ∧ t.seq ≠ s.seq) := by
  refine ⟨⟨_, rfl, by decide⟩, ⟨_, rfl, by decide⟩, _, rfl, ?_⟩
  show Config.resetSeq 1 ≠ Config.resetSeq 1 ^^^ 1
  generalize Config.resetSeq 1 = x
  revert x
  decide

theorem test_witness_CapacityWrittenOnlyByConstruction :
    ∃ t, exec (.reset 8 none) State.reset = .next t ∧ t.capacity ≠ State.reset.capacity := ⟨_, rfl, by decide⟩

/-- The good checksum byte of V1, and a bad one. -/
theorem test_witness_ResponseArmedOnlyByChecksumByte :
    (let s := { v1Cksum with rx := [.byte 0x13] };
      s.txc = none ∧ ∃ t, step s = .next t ∧ t.txc = some 0) ∧
    (let s := { v1Cksum with rx := [.byte 0x12] };
      s.txc = none ∧ ∃ t, step s = .next t ∧ t.txc = some 0) :=
  ⟨⟨rfl, _, rfl, rfl⟩, rfl, _, rfl, rfl⟩

theorem test_witness_TransmitModeLeftOnlyWhenDrained :
    (sending.txc = some 2 ∧ ∃ t, step sending = .next t ∧ t.txc = none) ∧
    (let s := { sending with schedule := [.construct 8 none] };
      s.txc = some 2 ∧ ∃ t, step s = .next t ∧ t.txc = none) :=
  ⟨⟨rfl, _, rfl, rfl⟩, rfl, _, rfl, rfl⟩

theorem test_witness_ProcessorCalledOnlyForGoodFrames :
    let s := { v1Cksum with rx := [.byte 0x13] }
    ∃ t, step s = .next t ∧ Event.called [1, 2, 3] 1 [0x7F] ∈ t.trace.drop s.trace.length :=
  ⟨_, rfl, by decide⟩

/-- The first clause from the middle of a payload; the second with nothing to read. -/
theorem test_witness_ParserReturnsToStart :
    (let s := { v1Data with rx := (List.replicate 15 0).map .byte, proc := [] };
      Inv s ∧ s.txc = none ∧ s.schedule = [] ∧ s.processorKeepsContract ∧
        (List.replicate 15 (0 : Byte)).length = s.maxp + 5 ∧
        s.handsOver (List.replicate 15 0) { s with rx := [] }) ∧
    (Inv v1Data ∧ v1Data.txc = none ∧ v1Data.schedule = [] ∧ v1Data.processorKeepsContract ∧
      v1Data.rxAnswer = .noData) :=
  ⟨⟨inv_answers inv_v1Data _ [], rfl, rfl, (by intro a h; cases h), by decide,
      handsOver_listed (List.append_nil _).symm⟩,
    inv_v1Data, rfl, rfl, (by intro a h; cases h), rfl⟩

/-- Idle states that differ in every register that is dead there. -/
theorem test_witness_DeadRegistersAreNeverRead :
    SameButDead State.reset { State.reset with ck := 1, seq := 2, len := 3, cnt := 4, txlen := 5 } := by
  refine ⟨rfl, fun h => absurd rfl h, fun h => absurd rfl h, fun h => ?_, fun h => ?_, fun h => absurd rfl h⟩ <;>
    simp [State.inPayload, State.reset] at h

/-- V32: the first byte at once, and after an empty `svc`. -/
theorem test_witness_FeedingGranularityDoesNotMatter :
    let s := receiving [0x1B, 5] ⟨[], 0, none⟩
    let t := { s with rx := [.noData, .byte 0x1B, .noData, .byte 5] }
    s.schedule = [] ∧ SameStream s t ∧ ∃ u, step s = .next u := ⟨rfl, ⟨rfl, rfl⟩, _, rfl⟩

/-- ValidFrameRoundTrip with payloads of one byte and of `MAXP`, with and without a response. -/
theorem test_witness_ValidFrameRoundTrip :
    ∀ n ∈ [1, 10], ∀ r ∈ [0, 10],
      let p := List.replicate n (0x1B : Byte)
      let s := receiving (frameBytes 0x80 p) ⟨[(0, 5)], r, none⟩
      Inv s ∧ s.idle ∧ s.schedule = [] ∧ s.processorKeepsContract ∧ 1 ≤ p.length ∧ p.length ≤ s.maxp ∧
        s.handsOver (frameBytes 0x80 p) { s with rx := [] } := by
  intro n hn r hr
  have hp : ∀ n ∈ [1, 10], 1 ≤ (List.replicate n (0x1B : Byte)).length ∧
      (List.replicate n (0x1B : Byte)).length ≤ State.reset.maxp := by decide
  have hr' : ∀ r ∈ [0, 10], answerFits State.reset.maxp ⟨[(0, 5)], r, none⟩ = true := by decide
  refine ⟨inv_receiving _ _, ⟨rfl, rfl⟩, rfl, ?_, (hp n hn).1, (hp n hn).2,
    handsOver_listed (List.append_nil _).symm⟩
  intro c h
  cases List.mem_singleton.1 h
  exact hr' r hr

/-- V3's request with each kind of wrong checksum byte, 0x1B among them. -/
theorem test_witness_WrongChecksumByteAnswered :
    ∀ c ∈ [(0x12 : Byte), 0x1B],
      let s := receiving (frameBody 5 [1, 2, 3] ++ [c]) ⟨[], 0, none⟩
      Inv s ∧ s.idle ∧ s.schedule = [] ∧ 1 ≤ [1, 2, 3].length ∧ [1, 2, 3].length ≤ s.maxp ∧
        c ≠ xorAll (frameBody 5 [1, 2, 3]) ∧
        s.handsOver (frameBody 5 [1, 2, 3] ++ [c]) { s with rx := [] } := by
  intro c hc
  refine ⟨inv_receiving _ _, ⟨rfl, rfl⟩, rfl, by decide, (by decide : 3 ≤ State.reset.maxp), ?_,
    handsOver_listed (List.append_nil _).symm⟩
  revert c
  decide

/-- V10 and V12. -/
theorem test_witness_ZeroLengthFrameDropped :
    ∀ seq ∈ [(0x05 : Byte), 0x0E],
      let s := receiving [0x1B, seq, 0, 0, 0x0E, 0x15 ^^^ seq] ⟨[], 0, none⟩
      s.idle ∧ s.schedule = [] ∧
        s.handsOver [0x1B, seq, 0, 0, 0x0E, 0x15 ^^^ seq] { s with rx := [] } :=
  fun _ _ => ⟨⟨rfl, rfl⟩, rfl, handsOver_listed rfl⟩

/-- V8's length, just above `MAXP`, and the largest. -/
theorem test_witness_OversizeFrameResynchronises :
    State.reset.maxp < 256 * (0 : Byte).toNat + (0x0B : Byte).toNat ∧
    State.reset.maxp < 256 * (0xFF : Byte).toNat + (0xFF : Byte).toNat ∧
    (∀ b ∈ [(0x0E : Byte), 0xAA], b ≠ 0x1B) ∧
    (let s := receiving [0x1B, 7, 0, 0x0B, 0x0E, 0xAA, 0x1B] ⟨[], 0, none⟩;
      s.idle ∧ s.schedule = [] ∧
        s.handsOver ([0x1B, 7, 0, 0x0B] ++ [0x0E, 0xAA] ++ [0x1B]) { s with rx := [] }) :=
  ⟨by decide, by decide, by decide, ⟨rfl, rfl⟩, rfl, handsOver_listed rfl⟩

/-- V30 for both clauses: one byte short of the whole, exactly the whole, and more than the whole. -/
theorem test_witness_TransmittedExactlyOnce :
    (let s := { pending with wr := [0, 1, 5] ++ [9] };
      s.schedule = [] ∧ s.txc = some 0 ∧ 0 < s.txlen ∧ s.txlen ≤ s.capacity ∧ s.wr = [0, 1, 5] ++ [9] ∧
        0 + [0, 1, 5].sum + 1 = s.txlen) ∧
    (∀ last ∈ [1, 9], let s := { pending with wr := [0, 1, 5, last] ++ [] };
      s.wr = [0, 1, 5, last] ++ [] ∧ [0, 1, 5, last] = [0, 1, 5] ++ [last] ∧ 0 + [0, 1, 5].sum < s.txlen ∧
        s.txlen ≤ 0 + [0, 1, 5, last].sum) := by decide

end Sys2Proof.Tests
end

/-! # The invariants of R38, and who writes `SEQ` and `CAPACITY`

`Inv` is taken apart into what it says of the storage, of the parser and of a pending response. A step changes at
most one of the last two, so each of its cases is proved for that part alone. -/

namespace Sys2Proof.Machine

/-! ## The invariants in three parts -/

/-- What `Inv` says of `CAPACITY`, `BUF` and the widths of the registers, whatever the mode. -/
structure StorageInv (s : State) : Prop where
  /-- `8 <= CAPACITY <= 65541` (R7). -/
  capacity : capacityValid s.capacity = true
  /-- `BUF` is in canonical form. -/
  memory : Memory.wf s.buf = true
  /-- `BUF` holds no byte outside `0 .. CAPACITY-1` (R26). -/
  bounded : ∀ c ∈ s.buf, c.1 < s.capacity
  /-- `CNT` fits 16 bits (R25). -/
  countWidth : s.cnt < 65536
  /-- `TXLEN` fits 17 bits (R28). -/
  txlenWidth : s.txlen < 131072

/-- The checksum accumulator `ck` covers the last `n` of the bytes `l` (I6). -/
def Accumulates (ck : Byte) (n : Nat) (l : List Byte) : Prop := n ≤ l.length ∧ ck = xorAll (lastOf n l)

/-- `LEN` holds an accepted length (I4). -/
def State.lengthAccepted (s : State) : Prop := 0 < s.len.toNat ∧ s.len.toNat ≤ s.maxp

/-- With the bytes `l` consumed, a header and `CNT` payload bytes are accounted for in `CK` and the payload bytes
are in `BUF` (I4, I6, I7). -/
def PayloadStored (s : State) (l : List Byte) : Prop :=
  Accumulates s.ck (Config.head + s.cnt) l ∧ s.lengthAccepted ∧
    Memory.slice s.buf Config.head s.cnt = lastOf s.cnt l

/-- What `Inv` says of the parser when the bytes `l` have been consumed (I4 to I7), state by state. -/
def State.parsed (s : State) (l : List Byte) : Prop :=
  match s.st with
  | .start => True
  | .waitSeq => Accumulates s.ck 1 l
  | .waitLenMsb => Accumulates s.ck 2 l
  | .waitLenLsb => Accumulates s.ck 3 l
  | .waitToken => Accumulates s.ck 4 l ∧ s.lengthAccepted ∧ s.cnt = 0
  | .data => PayloadStored s l ∧ s.cnt < s.len.toNat
  | .waitCksum => PayloadStored s l ∧ s.cnt = s.len.toNat

/-- What `Inv` says of a response pending at cursor `k` (I2, I3, I8). -/
structure ResponsePending (s : State) (k : Nat) : Prop where
  /-- I3. -/
  interlock : s.st = .start
  /-- I2. -/
  cursor : k < s.txlen ∧ 7 ≤ s.txlen ∧ s.txlen ≤ s.capacity
  /-- I8: `BUF` holds a frame. -/
  frame : ∃ p, Memory.slice s.buf 0 s.txlen = frameBytes s.seq p
  /-- I8: the bytes before the cursor are the last that the transport accepted. -/
  sent : k ≤ s.transmitted.length ∧ lastOf k s.transmitted = Memory.slice s.buf 0 k

section
variable {s : State} {l : List Byte}

theorem parsed_start (h : s.st = .start) : s.parsed l := by simp [State.parsed, h]

theorem parsed_waitSeq (h : s.st = .waitSeq) : s.parsed l ↔ Accumulates s.ck 1 l := by simp [State.parsed, h]

theorem parsed_waitLenMsb (h : s.st = .waitLenMsb) : s.parsed l ↔ Accumulates s.ck 2 l := by
  simp [State.parsed, h]

theorem parsed_waitLenLsb (h : s.st = .waitLenLsb) : s.parsed l ↔ Accumulates s.ck 3 l := by
  simp [State.parsed, h]

theorem parsed_waitToken (h : s.st = .waitToken) :
    s.parsed l ↔ Accumulates s.ck 4 l ∧ s.lengthAccepted ∧ s.cnt = 0 := by simp [State.parsed, h]

theorem parsed_data (h : s.st = .data) : s.parsed l ↔ PayloadStored s l ∧ s.cnt < s.len.toNat := by
  simp [State.parsed, h]

theorem parsed_waitCksum (h : s.st = .waitCksum) : s.parsed l ↔ PayloadStored s l ∧ s.cnt = s.len.toNat := by
  simp [State.parsed, h]

/-- The accumulator covers the frame in progress, whatever its position. -/
theorem accumulates_of_parsed (h : s.parsed l) (hst : s.st ≠ .start) : Accumulates s.ck s.framePosition l := by
  unfold State.framePosition
  cases hc : s.st with
  | start => exact absurd hc hst
  | waitSeq => exact (parsed_waitSeq hc).1 h
  | waitLenMsb => exact (parsed_waitLenMsb hc).1 h
  | waitLenLsb => exact (parsed_waitLenLsb hc).1 h
  | waitToken => exact ((parsed_waitToken hc).1 h).1
  | data => exact ((parsed_data hc).1 h).1.1
  | waitCksum => exact ((parsed_waitCksum hc).1 h).1.1

theorem payloadStored_of_parsed (h : s.parsed l) (hst : s.st = .data ∨ s.st = .waitCksum) : PayloadStored s l :=
  hst.elim (fun hc => ((parsed_data hc).1 h).1) fun hc => ((parsed_waitCksum hc).1 h).1

theorem lengthAccepted_of_parsed (h : s.parsed l) (hst : s.inPayload) : s.lengthAccepted :=
  hst.elim (fun hc => ((parsed_waitToken hc).1 h).2.1) fun hc => (payloadStored_of_parsed h hc).2.1

theorem framePosition_payload (hst : s.st = .data ∨ s.st = .waitCksum) :
    s.framePosition = Config.head + s.cnt := by
  unfold State.framePosition
  rcases hst with h | h <;> rw [h]

end

/-! ## The last bytes of a stream -/

/-- Past the first `h` of the last `h + n` elements are the last `n`. -/
theorem drop_lastOf (h n : Nat) {l : List Byte} (hl : h + n ≤ l.length) : (lastOf (h + n) l).drop h = lastOf n l := by
  rw [lastOf, lastOf, List.drop_drop]
  congr 1
  omega

theorem accumulates_zero (l : List Byte) : Accumulates 0 0 l := ⟨Nat.zero_le _, by rw [lastOf_zero]; rfl⟩

/-- One byte more is consumed and taken into the checksum (R22). -/
theorem Accumulates.snoc {ck : Byte} {n : Nat} {l : List Byte} (h : Accumulates ck n l) (b : Byte) :
    Accumulates (ck ^^^ b) (n + 1) (l ++ [b]) := by
  obtain ⟨hn, hck⟩ := h
  exact ⟨by simpa using hn, by rw [lastOf_snoc, xorAll_snoc, hck]⟩

/-! ## The parts and the whole

`Inv` gives each part, and the parts give `Inv`. -/

theorem Inv.storage {s : State} (h : Inv s) : StorageInv s := { h with }

theorem Inv.responsePending {s : State} {k : Nat} (h : Inv s) (hk : s.txc = some k) : ResponsePending s k where
  interlock := h.interlock (by simp [hk])
  cursor := h.cursor k hk
  frame := (h.response k hk).1
  sent := (h.response k hk).2

theorem Inv.payloadStored {s : State} (h : Inv s) (hst : s.st = .data ∨ s.st = .waitCksum) :
    PayloadStored s s.consumedBytes := by
  have hck : Accumulates s.ck s.framePosition s.consumedBytes := h.checksum (by rcases hst with h | h <;> simp [h])
  have hpay := h.payload hst
  rw [State.frameSoFar, framePosition_payload hst] at hpay
  rw [framePosition_payload hst] at hck
  exact ⟨hck, h.length (.inr hst), hpay.trans (drop_lastOf _ _ hck.1)⟩

theorem Inv.parsed {s : State} (h : Inv s) : s.parsed s.consumedBytes := by
  have hck : s.st ≠ .start → Accumulates s.ck s.framePosition s.consumedBytes := h.checksum
  unfold State.framePosition at hck
  cases hst : s.st <;> simp only [hst, ne_eq, reduceCtorEq, not_false_eq_true, true_imp_iff] at hck
  case start => exact parsed_start hst
  case waitSeq => exact (parsed_waitSeq hst).2 hck
  case waitLenMsb => exact (parsed_waitLenMsb hst).2 hck
  case waitLenLsb => exact (parsed_waitLenLsb hst).2 hck
  case waitToken => exact (parsed_waitToken hst).2 ⟨hck, h.length (.inl hst), h.countToken hst⟩
  case data => exact (parsed_data hst).2 ⟨h.payloadStored (.inl hst), h.countData hst⟩
  case waitCksum => exact (parsed_waitCksum hst).2 ⟨h.payloadStored (.inr hst), h.countCksum hst⟩

theorem inv_of_parts {s : State} (hs : StorageInv s) (hp : s.parsed s.consumedBytes)
    (hr : ∀ k, s.txc = some k → ResponsePending s k) : Inv s :=
  { hs with
    cursor := fun k hk => (hr k hk).cursor
    interlock := fun h =>
      have ⟨k, hk⟩ := Option.ne_none_iff_exists'.1 h
      (hr k hk).interlock
    length := lengthAccepted_of_parsed hp
    countToken := fun h => ((parsed_waitToken h).1 hp).2.2
    countData := fun h => ((parsed_data h).1 hp).2
    countCksum := fun h => ((parsed_waitCksum h).1 hp).2
    checksum := accumulates_of_parsed hp
    payload := fun h => by
      obtain ⟨⟨hle, _⟩, _, hpay⟩ := payloadStored_of_parsed hp h
      rw [State.frameSoFar, framePosition_payload h, drop_lastOf _ _ hle, hpay]
    response := fun k hk => ⟨(hr k hk).frame, (hr k hk).sent⟩ }

/-- In receive mode nothing is asked of a response. -/
theorem inv_of_receive {s : State} {l : List Byte} (hs : StorageInv s) (ht : s.txc = none)
    (hl : s.consumedBytes = l) (hp : s.parsed l) : Inv s :=
  inv_of_parts hs (hl ▸ hp) fun k hk => absurd hk (by simp [ht])

/-- Between frames in receive mode only the storage counts. -/
theorem inv_of_idle_storage {s : State} (hs : StorageInv s) (hi : s.idle) : Inv s :=
  inv_of_receive hs hi.2 rfl (parsed_start hi.1)

/-- With a response pending the parser only has to wait in START. -/
theorem inv_of_pending {s : State} {k : Nat} (hs : StorageInv s) (ht : s.txc = some k) (hr : ResponsePending s k) :
    Inv s :=
  inv_of_parts hs (parsed_start hr.interlock) fun _ hj => Option.some.inj (ht.symm.trans hj) ▸ hr

/-! ## What the shared operations do to the parts -/

/-- A byte stored inside `BUF` keeps the storage. -/
theorem StorageInv.write {s : State} (hs : StorageInv s) {a : Nat} (ha : a < s.capacity) (b : Byte) :
    StorageInv { s with buf := Memory.write s.buf a b } :=
  { hs with
    memory := wf_write hs.memory a b
    bounded := fun _ hc => (mem_write hc).elim (hs.bounded _) fun h => h ▸ ha }

/-- Bytes stored inside `BUF` keep the storage. -/
theorem StorageInv.writeBytes {s : State} (hs : StorageInv s) {a : Nat} {bs : List Byte}
    (ha : a + bs.length ≤ s.capacity) : StorageInv { s with buf := Memory.writeBytes s.buf a bs } :=
  { hs with
    memory := wf_writeBytes hs.memory a bs
    bounded := fun _ hc => (mem_writeBytes hc).elim (hs.bounded _) fun h => h.2.trans_le ha }

/-- The payload region ends one byte below `CAPACITY` (R7). -/
theorem StorageInv.head_maxp {s : State} (hs : StorageInv s) : Config.head + s.maxp + 1 = s.capacity := by
  have hc := (capacityValid_iff.1 hs.capacity).1
  rw [maxp_eq, show Config.head = 5 from rfl]
  omega

/-- A Processor that keeps its contract writes inside the payload region (R184). -/
theorem StorageInv.afterCall {s : State} {a : ProcAnswer} (hs : StorageInv s) (hf : answerFits s.maxp a = true) :
    StorageInv (s.afterCall a) :=
  { hs with
    memory := wf_writeCells hs.memory _ _
    bounded := fun c hc => (mem_writeCells hc).elim (hs.bounded c) fun ⟨d, hd, h⟩ => by
      have hw := writes_of_fits hf d hd
      have hm := hs.head_maxp
      show c.1 < s.capacity
      omega }

/-- `arm_response(n)` under its precondition (R148) leaves a frame pending from its first byte. -/
theorem inv_arm {s : State} {n : Nat} (hs : StorageInv s) (hst : s.st = .start) (h0 : 0 < n) (hn : n ≤ s.maxp) :
    Inv (s.arm n) := by
  have hm := hs.head_maxp
  have hc := (capacityValid_iff.1 hs.capacity).2
  have hl : (s.arm n).txlen = 5 + n + 1 := rfl
  have hh : Config.head = 5 := rfl
  have hstorage : StorageInv (s.arm n) :=
    { capacity := hs.capacity
      memory := wf_arm hs.memory n
      bounded := arm_bounded hs.bounded (by omega)
      countWidth := hs.countWidth
      txlenWidth := by omega }
  refine inv_of_pending hstorage (arm_txc s n) ⟨hst, ?_, ⟨_, slice_arm hs.memory n⟩, ?_⟩
  · rw [arm_capacity]; omega
  · exact ⟨Nat.zero_le _, lastOf_zero _⟩

/-- D.RESP or D.NONE between frames (R145, R146). -/
theorem inv_respond {s : State} {r : Nat} (hs : StorageInv s) (hi : s.idle) (hr : r ≤ s.maxp) :
    Inv (s.respond r) := by
  rcases Nat.eq_zero_or_pos r with rfl | h0
  · rw [respond_zero]; exact inv_of_idle_storage hs hi
  · rw [respond_pos s h0]; exact inv_arm hs hi.1 h0 hr

/-- A completed Processor call between frames (R144). -/
theorem inv_completeCall {s : State} {a : ProcAnswer} (hs : StorageInv s) (hi : s.idle)
    (hf : answerFits s.maxp a = true) : Inv (s.completeCall a) :=
  inv_respond (hs.afterCall hf) hi (length_of_fits hf)

/-- The error response fits every valid `CAPACITY` (R88, R143). -/
theorem inv_errorResponse {s : State} (hs : StorageInv s) (hst : s.st = .start) : Inv s.errorResponse := by
  have hc := (capacityValid_iff.1 hs.capacity).1
  have hw : StorageInv { s with buf := Memory.writeBytes s.buf Config.head errorPayload } :=
    hs.writeBytes (show 5 + 2 ≤ s.capacity by omega)
  refine inv_arm hw hst (by decide) ?_
  rw [maxp_eq]
  show 2 ≤ s.capacity - 6
  omega

/-- A construction leaves the Framer idle, the unspecified registers within their widths (R37, R250). -/
theorem inv_construct {s : State} {c : Nat} (hc : capacityValid c = true) : Inv (s.construct c) :=
  inv_of_idle_storage
    { capacity := hc
      memory := wf_unspecified _ c
      bounded := fun _ h => mem_unspecified h
      countWidth := (Config.resetCnt _).isLt
      txlenWidth := (Config.resetTxlen _).isLt }
    ⟨rfl, rfl⟩

/-! ## A byte accepted -/

/-- A payload byte stored: one more in `BUF`, in `CK` and in `CNT` (R119, R120). -/
theorem PayloadStored.snoc {s : State} {l : List Byte} (h : PayloadStored s l) (hw : Memory.wf s.buf = true)
    (b : Byte) : PayloadStored { s.storePayload b with ck := s.ck ^^^ b } (l ++ [b]) := by
  obtain ⟨hck, hlen, hpay⟩ := h
  refine ⟨hck.snoc b, hlen, ?_⟩
  show Memory.slice (Memory.write s.buf (Config.head + s.cnt) b) Config.head (s.cnt + 1) =
    lastOf (s.cnt + 1) (l ++ [b])
  rw [slice_succ, lastOf_snoc, read_write hw, if_pos rfl, ← hpay]
  congr 1
  refine slice_congr fun i _ hi => ?_
  rw [read_write hw, if_neg (by omega)]

/-- The parser operation on byte `b` keeps the invariants: those of the parser held of the bytes consumed before
`b`, and `b` is now the last consumed. -/
theorem inv_accepts {b : Byte} {s t : State} {l : List Byte} (ha : Accepts b s t) (hs : StorageInv s)
    (ht : s.txc = none) (hl : s.consumedBytes = l ++ [b]) (hp : s.parsed l) : Inv t := by
  cases ha with
  | sync h hb =>
    subst hb
    exact inv_of_receive { hs with } ht hl (accumulates_zero l |>.snoc 0x1B)
  | skip h hb => exact inv_of_idle_storage hs ⟨h, ht⟩
  | seq h => exact inv_of_receive { hs with } ht hl (((parsed_waitSeq h).1 hp).snoc b)
  | lenh h => exact inv_of_receive { hs with } ht hl (((parsed_waitLenMsb h).1 hp).snoc b)
  | lenl h hv =>
    exact inv_of_receive { hs with countWidth := Nat.zero_lt_succ _ } ht hl
      ⟨((parsed_waitLenLsb h).1 hp).snoc b, lenValid_iff.1 hv, rfl⟩
  | lenlDrop h hv => exact inv_of_idle_storage { hs with countWidth := Nat.zero_lt_succ _ } ⟨rfl, ht⟩
  | token h hb =>
    subst hb
    obtain ⟨hck, hlen, hcnt⟩ := (parsed_waitToken h).1 hp
    refine inv_of_receive { hs with } ht hl ⟨⟨?_, hlen, ?_⟩, hcnt ▸ hlen.1⟩
    · show Accumulates (s.ck ^^^ 0x0E) (Config.head + s.cnt) _
      rw [hcnt]; exact hck.snoc 0x0E
    · show Memory.slice s.buf Config.head s.cnt = lastOf s.cnt _
      rw [hcnt, lastOf_zero]; rfl
  | tokenBad h hb => exact inv_of_idle_storage { hs with } ⟨rfl, ht⟩
  | data h hc hb =>
    obtain ⟨hps, _⟩ := (parsed_data h).1 hp
    exact inv_of_receive { hs.write hb b with countWidth := hc.trans s.len.isLt } ht hl
      ((parsed_data (s := { s.storePayload b with ck := s.ck ^^^ b }) h).2 ⟨hps.snoc hs.memory b, hc⟩)
  | dataLast h hc hb =>
    obtain ⟨hps, _⟩ := (parsed_data h).1 hp
    exact inv_of_receive { hs.write hb b with countWidth := hc.trans_lt s.len.isLt } ht hl
      ⟨hps.snoc hs.memory b, hc⟩
  | cksumOk a h hb hlen _ hf => exact inv_completeCall { hs with } ⟨rfl, ht⟩ hf
  | cksumErr h hb hc => exact inv_errorResponse { hs with } rfl

/-! ## A step -/

/-- The bytes before the cursor stay the last accepted when `n` more bytes of the frame are (R163). -/
theorem sent_advance {m : Memory} {k : Nat} {l : List Byte}
    (h : k ≤ l.length ∧ lastOf k l = Memory.slice m 0 k) (n : Nat) :
    k + n ≤ (l ++ Memory.slice m k n).length ∧
      lastOf (k + n) (l ++ Memory.slice m k n) = Memory.slice m 0 (k + n) := by
  have happ := lastOf_append k l (Memory.slice m k n)
  rw [slice_length] at happ
  refine ⟨by simpa using h.1, ?_⟩
  rw [happ, h.2, slice_append, Nat.zero_add]

/-- Every micro-step of the engine keeps the invariants. -/
theorem inv_micro {s t : State} (h : Inv s) (hm : Micro s t) : Inv t := by
  cases hm with
  | noData ht hr => exact { h with }
  | byte b _ ht hr ha =>
    exact inv_accepts ha { h.storage with } ht (by simp [State.consumedBytes, Event.consumedByte]) h.parsed
  | stall k ht hk hc hw => exact { h with }
  | part k n ht hk hc hw h0 hn =>
    obtain ⟨hst, ⟨_, hmin, _⟩, hframe, hsent⟩ := h.responsePending ht
    refine inv_of_pending { h.storage with } rfl ⟨hst, ⟨?_, hmin, hc⟩, hframe, ?_⟩
    · show k + n < s.txlen
      omega
    · simpa [State.transmitted, Event.acceptedBytes] using sent_advance hsent n
  | done k ht hk hc hw => exact inv_of_idle_storage { h.storage with } ⟨(h.responsePending ht).interlock, rfl⟩

/-- Settles O44: an engine step by `inv_micro`; the peer touches the receive stream alone, and a construction
leaves an idle Framer. -/
theorem invariantsKeptByEveryStep : Obligations.InvariantsKeptByEveryStep := by
  intro s t h hstep
  cases step_next.1 hstep with
  | engine t _ hm => exact inv_micro h hm
  | turn rest t _ hm => exact inv_micro (s := { s with schedule := rest }) { h with } hm
  | request q p rest _ _ => exact { h with }
  | construct c g rest _ hc _ => exact inv_construct hc

/-! ## Who writes `SEQ` and `CAPACITY` -/

/-- An outcome that, where it is a next state, has the `CAPACITY` and `SEQ` of `s`. -/
def KeepsSetup (s : State) (r : Result) : Prop := ∀ t, r = .next t → t.capacity = s.capacity ∧ t.seq = s.seq

section
variable {s : State} {r : Result}

theorem keepsSetup_next {t : State} (hc : t.capacity = s.capacity) (hs : t.seq = s.seq) : KeepsSetup s (.next t) := by
  rintro _ ⟨⟩
  exact ⟨hc, hs⟩

theorem keepsSetup_ifSelected {c : Bool} (h : KeepsSetup s r) : KeepsSetup s (ifSelected s c r) :=
  fun t ht => h t (ifSelected_next.1 ht).2.2

theorem keepsSetup_ifInBuffer {a : Nat} (h : KeepsSetup s r) : KeepsSetup s (ifInBuffer s a r) :=
  fun t ht => h t (ifInBuffer_next.1 ht).2

theorem keepsSetup_ifPending {f : Nat → Result} (h : ∀ k, KeepsSetup s (f k)) : KeepsSetup s (ifPending s f) := by
  intro t ht
  obtain ⟨k, _, _, _, hf⟩ := ifPending_next.1 ht
  exact h k t hf

theorem keepsSetup_ite {p : Prop} [Decidable p] {r' : Result} (h : KeepsSetup s r) (h' : KeepsSetup s r') :
    KeepsSetup s (if p then r else r') := by
  split
  · exact h
  · exact h'

theorem keepsSetup_refused (f : Refusal) : KeepsSetup s (.refused f) := nofun

theorem keepsSetup_fault (f : Fault) : KeepsSetup s (.fault f) := nofun

theorem completeCall_setup (s : State) (a : ProcAnswer) :
    (s.completeCall a).capacity = s.capacity ∧ (s.completeCall a).seq = s.seq := by
  rw [completeCall_frame]
  exact ⟨rfl, rfl⟩

theorem keepsSetup_callProcessor (s : State) : KeepsSetup s (callProcessor s) := by
  intro t ht
  obtain ⟨_, a, _, _, rfl⟩ := callProcessor_next.1 ht
  exact completeCall_setup s a

theorem keepsSetup_armChecked (s : State) (n : Nat) : KeepsSetup s (armChecked n s) :=
  keepsSetup_ite (keepsSetup_next rfl rfl) (keepsSetup_refused _)

theorem keepsSetup_sendFrame (s : State) (frame : List Byte) : KeepsSetup s (sendFrame s frame) :=
  keepsSetup_ite (keepsSetup_ite (keepsSetup_next rfl rfl) (keepsSetup_fault _)) (keepsSetup_refused _)

end

/-- What an operation that completes does to `CAPACITY` and `SEQ`. -/
inductive SetupEffect (i : Instr) (s t : State) : Prop
  /-- Both are kept. -/
  | kept (hc : t.capacity = s.capacity) (hs : t.seq = s.seq)
  /-- P.SEQ by itself or within S.RX.BYTE: `SEQ` is the byte. -/
  | seqByte (b : Byte) (hi : i = .pSeq b ∨ i = .sRxByte b ∧ s.st = .waitSeq) (hc : t.capacity = s.capacity)
      (hs : t.seq = b)
  /-- A construction: `CAPACITY` is its operand. -/
  | constructed (c : Nat) (g : Option Binding) (hi : i = .reset c g) (hc : t.capacity = c)

theorem setupEffect_of_keeps {i : Instr} {s t : State} (h : exec i s = .next t) (hk : KeepsSetup s (exec i s)) :
    SetupEffect i s t :=
  .kept (hk t h).1 (hk t h).2

/-- A parser operation writes `SEQ` in state WAIT_SEQ alone, and never `CAPACITY`. -/
theorem accepts_setup {b : Byte} {s t : State} (h : Accepts b s t) :
    t.capacity = s.capacity ∧ (t.seq = s.seq ∨ s.st = .waitSeq ∧ t.seq = b) := by
  cases h with
  | seq h => exact ⟨rfl, .inr ⟨h, rfl⟩⟩
  | cksumOk a =>
    obtain ⟨hc, hs⟩ := completeCall_setup { s with ck := 0, st := .start } a
    exact ⟨hc, .inl hs⟩
  | _ => exact ⟨rfl, .inl rfl⟩

theorem sRxByte_setup {b : Byte} {s t : State} (h : exec (.sRxByte b) s = .next t) :
    SetupEffect (.sRxByte b) s t := by
  obtain ⟨_, ha⟩ := acceptByte_next.1 h
  obtain ⟨hc, hs | ⟨hst, hs⟩⟩ := accepts_setup ha
  · exact .kept hc hs
  · exact .seqByte b (.inr ⟨rfl, hst⟩) hc hs

theorem exec_setup {i : Instr} {s t : State} (h : exec i s = .next t) : SetupEffect i s t := by
  cases i with
  | pSync | pSkip | pLenh | pLenl | pToken | pTokenBad | dNone =>
    exact setupEffect_of_keeps h (keepsSetup_ifSelected (keepsSetup_next rfl rfl))
  | pSeq b =>
    obtain ⟨_, _, ⟨⟩⟩ := ifSelected_next.1 h
    exact .seqByte b (.inl rfl) rfl rfl
  | pLenlDrop b =>
    refine setupEffect_of_keeps h (keepsSetup_ifSelected ?_)
    rw [takeError_lengthError]
    exact keepsSetup_next rfl rfl
  | pData | pDataLast | pCksumErr | dErr =>
    exact setupEffect_of_keeps h (keepsSetup_ifSelected (keepsSetup_ifInBuffer (keepsSetup_next rfl rfl)))
  | pCksumOk b =>
    exact setupEffect_of_keeps h
      (keepsSetup_ifSelected (keepsSetup_callProcessor { s with ck := s.ck ^^^ b, st := .start }))
  | dCall => exact setupEffect_of_keeps h (keepsSetup_ifSelected (keepsSetup_callProcessor s))
  | dResp n | dArm n => exact setupEffect_of_keeps h (keepsSetup_ifSelected (keepsSetup_armChecked s n))
  | sRxNodata => exact setupEffect_of_keeps h (keepsSetup_ite (keepsSetup_refused _) (keepsSetup_next rfl rfl))
  | sRxByte b => exact sRxByte_setup h
  | sTxStall | sTxDone =>
    exact setupEffect_of_keeps h (keepsSetup_ifPending fun _ => keepsSetup_next rfl rfl)
  | sTxPart n =>
    exact setupEffect_of_keeps h
      (keepsSetup_ifPending fun _ => keepsSetup_ite (keepsSetup_next rfl rfl) (keepsSetup_refused _))
  | reset c g =>
    obtain ⟨_, _, rfl⟩ := execReset_next.1 h
    exact .constructed c g rfl rfl
  | frameReq q p => exact setupEffect_of_keeps h (keepsSetup_ite (keepsSetup_next rfl rfl) (keepsSetup_refused _))
  | frameRsp | frameErr => exact setupEffect_of_keeps h (keepsSetup_sendFrame s _)

/-- Settles O48, from what an operation does to `SEQ`. -/
theorem seqWrittenOnlyByPSeq : Obligations.SeqWrittenOnlyByPSeq := by
  intro i s t h hne
  cases exec_setup h with
  | kept _ hs => exact absurd hs hne
  | seqByte b hi _ hs => exact hi.elim (fun h => .inl ⟨b, h, hs⟩) fun h => .inr (.inl ⟨b, h.1, h.2, hs⟩)
  | constructed c g hi _ => exact .inr (.inr ⟨c, g, hi⟩)

/-- Settles O49, from what an operation does to `CAPACITY`. -/
theorem capacityWrittenOnlyByConstruction : Obligations.CapacityWrittenOnlyByConstruction := by
  intro i s t h hne
  cases exec_setup h with
  | kept hc _ => exact absurd hc hne
  | seqByte b _ hc _ => exact absurd hc hne
  | constructed c g hi hc => exact ⟨g, hc ▸ hi⟩

/-! ## The state after reset -/

theorem capacityValid_reset : capacityValid State.reset.capacity = true := capacityValid_iff.2 (by decide)

/-- Nothing is stored, and zeros fit every width. -/
theorem storageInv_reset : StorageInv State.reset where
  capacity := capacityValid_reset
  memory := rfl
  bounded := nofun
  countWidth := Nat.zero_lt_succ _
  txlenWidth := Nat.zero_lt_succ _

/-- Settles O33: each part is read off the literal but for the capacity, which has bounds. -/
theorem resetIsIdleReceive : Obligations.ResetIsIdleReceive := ⟨rfl, rfl, rfl, rfl, capacityValid_reset⟩

/-- Settles O45: the state is idle, and no invariant of an idle state speaks of the environment. -/
theorem invariantsHoldAtReset : Obligations.InvariantsHoldAtReset := by
  intro rx rxAfter wr wrAfter proc ps turns
  exact inv_of_idle_storage { storageInv_reset with } ⟨rfl, rfl⟩

end Sys2Proof.Machine

/-! # The half-duplex interlock (R65)

With no turns listed a step is a micro-step of the engine, and in transmit mode that is one of the three write steps
of R160: none of them reads, and what they add to the trace are accepted bytes. -/

namespace Sys2Proof.Machine

/-- With no turns listed the step is the engine's. -/
theorem step_engine_next {s t : State} (hs : s.schedule = []) : step s = .next t ↔ Micro s t := by
  have hstep : step s = microStep s := by rw [step, fetch_engine hs, microStep]
  rw [hstep, microStep_next]

/-- Bytes that the transport accepts are no bytes consumed. -/
theorem consumedBytes_of_accepted {s t : State} {bs : List Byte} (h : t.trace = s.trace ++ [.accepted bs]) :
    t.consumedBytes = s.consumedBytes := by
  simp [State.consumedBytes, h, Event.consumedByte]

/-- A micro-step in transmit mode is S.TX.STALL, S.TX.PART or S.TX.DONE (R163 to R166); this is its frame. -/
theorem micro_transmit_frame {s t : State} {k : Nat} (hk : s.txc = some k) (hm : Micro s t) :
    t = { s with txc := t.txc, wr := t.wr, serving := t.serving, trace := t.trace } ∧
      t.consumedBytes = s.consumedBytes := by
  cases hm with
  | noData hidle | byte _ _ hidle => exact absurd (hk.symm.trans hidle) nofun
  | stall => exact ⟨rfl, rfl⟩
  | part | done => exact ⟨rfl, consumedBytes_of_accepted rfl⟩

/-- Settles O29, from the frame of a micro-step in transmit mode. -/
theorem halfDuplexInterlock : Obligations.HalfDuplexInterlock :=
  fun _ _ _ hs hk h => micro_transmit_frame hk ((step_engine_next hs).1 h)

end Sys2Proof.Machine

/-! # Words, keys and frames (30_encoding.md)

The words of operations decode and encode both ways, the selector map of R91 row by row, and the format of a frame
(R80) with the three operations that move whole frames. -/

namespace Sys2Proof.Machine

/-! ## Words and operations -/

/-- No operation is missing among the per-operation laws. -/
theorem decode_encode (i : Instr) : Laws.DecodeEncode.Statement i := by
  cases i with
  | pSync => exact Laws.DecodeEncode.pSync
  | pSkip b => exact Laws.DecodeEncode.pSkip b
  | pSeq b => exact Laws.DecodeEncode.pSeq b
  | pLenh b => exact Laws.DecodeEncode.pLenh b
  | pLenl b => exact Laws.DecodeEncode.pLenl b
  | pLenlDrop b => exact Laws.DecodeEncode.pLenlDrop b
  | pToken => exact Laws.DecodeEncode.pToken
  | pTokenBad b => exact Laws.DecodeEncode.pTokenBad b
  | pData b => exact Laws.DecodeEncode.pData b
  | pDataLast b => exact Laws.DecodeEncode.pDataLast b
  | pCksumOk b => exact Laws.DecodeEncode.pCksumOk b
  | pCksumErr b => exact Laws.DecodeEncode.pCksumErr b
  | dErr => exact Laws.DecodeEncode.dErr
  | dCall => exact Laws.DecodeEncode.dCall
  | dResp r => exact Laws.DecodeEncode.dResp r
  | dNone => exact Laws.DecodeEncode.dNone
  | dArm len => exact Laws.DecodeEncode.dArm len
  | sRxNodata => exact Laws.DecodeEncode.sRxNodata
  | sRxByte b => exact Laws.DecodeEncode.sRxByte b
  | sTxStall => exact Laws.DecodeEncode.sTxStall
  | sTxPart n => exact Laws.DecodeEncode.sTxPart n
  | sTxDone => exact Laws.DecodeEncode.sTxDone
  | reset c binding => exact Laws.DecodeEncode.reset c binding
  | frameReq seq p => exact Laws.DecodeEncode.frameReq seq p
  | frameRsp seq p => exact Laws.DecodeEncode.frameRsp seq p
  | frameErr seq => exact Laws.DecodeEncode.frameErr seq

/-- Settles O41, from the laws of the operations one by one. -/
theorem decodeInvertsEncode : Obligations.DecodeInvertsEncode :=
  fun i f w hi he => decode_encode i hi f w he

/-- The parser word `w` is the word of the operation `i` of the table. -/
def IsParserWord (w : List Byte) (i : Instr) : Prop := i.wellFormed = true ∧ encode i = some (.parser, w)

/-- A row of R91 that the key with the number `n` selects: the key byte is determined by its number. -/
theorem isParserWord_of_row {b k : Byte} {i j : Instr} {n : Nat} (hk : k.toNat = n)
    (h : (.ok j : Except DecodeError Instr) = .ok i) (hj : IsParserWord [b, BitVec.ofNat 8 n] j) :
    IsParserWord [b, k] i := by
  cases h
  rwa [← hk, BitVec.ofNat_toNat, BitVec.setWidth_eq] at hj

theorem wellFormed_pSkip {b : Byte} (h : b ≠ Config.startSentinel) : (Instr.pSkip b).wellFormed = true := by
  simp [Instr.wellFormed, Instr.check, h]

theorem wellFormed_pTokenBad {b : Byte} (h : b ≠ Config.tokenSentinel) : (Instr.pTokenBad b).wellFormed = true := by
  simp [Instr.wellFormed, Instr.check, h]

/-- The key that selects a row is the key of that row. In states START and WAIT_TOKEN (the first and the fifth case)
the byte picks the row; state number 7 and the keys beyond the table (the eighth and the last) have none. -/
theorem isParserWord_of_decodeParser {b k : Byte} {i : Instr} (h : decodeParser b k = .ok i) :
    IsParserWord [b, k] i := by
  unfold decodeParser at h
  split at h
  case h_1 hk =>
    split at h
    case isTrue hb => subst hb; exact isParserWord_of_row hk h ⟨rfl, rfl⟩
    case isFalse hb => exact isParserWord_of_row hk h ⟨wellFormed_pSkip hb, rfl⟩
  case h_5 hk =>
    split at h
    case isTrue hb => subst hb; exact isParserWord_of_row hk h ⟨rfl, rfl⟩
    case isFalse hb => exact isParserWord_of_row hk h ⟨wellFormed_pTokenBad hb, rfl⟩
  case h_8 => cases h
  case h_12 => split at h <;> cases h
  all_goals exact isParserWord_of_row (by assumption) h ⟨rfl, rfl⟩

/-- A parser word has two bytes. -/
theorem decode_parser_ok {w : List Byte} {i : Instr} (h : decode .parser w = .ok i) :
    ∃ b k, w = [b, k] ∧ decodeParser b k = .ok i := by
  match w, h with
  | [b, k], h => exact ⟨b, k, rfl, h⟩

/-- Settles O42, row by row of the selector map. -/
theorem encodeInvertsDecode : Obligations.EncodeInvertsDecode := by
  intro w i h
  obtain ⟨b, k, rfl, hrow⟩ := decode_parser_ok h
  exact isParserWord_of_decodeParser hrow

/-- Settles O43: each conjunct is a decoding of fixed bits. -/
theorem specWordsDecode : Obligations.SpecWordsDecode := by
  unfold Obligations.SpecWordsDecode
  decide

/-! ## The selector map (R91) -/

/-- Settles O13, from what `accept_byte` performs in each parser state. -/
theorem selectorPicksTableRow : Obligations.SelectorPicksTableRow := by
  intro s b
  refine ⟨acceptByte_start b, acceptByte_waitSeq b, acceptByte_waitLenMsb b, fun h => ?_, acceptByte_waitToken b,
    fun h hmore => ?_, fun h hlast => ?_, fun h => ?_⟩
  · exact (acceptByte_waitLenLsb b h).trans (if_congr lenValid_iff rfl rfl)
  · exact (acceptByte_data b h).trans (if_pos hmore)
  · rw [acceptByte_data b h, if_neg (by omega), if_pos hlast]
    rfl
  · exact (acceptByte_waitCksum b h).trans (if_congr ckZero_iff rfl rfl)

/-- What has a parser word is performed by `accept_byte` as it is by `exec`. -/
theorem performParser_eq_exec {i : Instr} {w : List Byte} (he : encode i = some (.parser, w)) (s : State) :
    performParser i s = exec i s := by
  cases i with
  | pSync | pSkip | pSeq | pLenh | pLenl | pLenlDrop | pToken | pTokenBad | pData | pDataLast | pCksumOk
  | pCksumErr => rfl
  | reset c binding => cases binding <;> cases he
  | _ => cases he

/-- `accept_byte` runs the operation that the word of the state and the byte decodes to (R110). -/
theorem acceptByte_of_word {s : State} {b : Byte} {w : List Byte} {i : Instr} (hw : keyOf s b = some w)
    (hd : decode .parser w = .ok i) : acceptByte b s = exec i s := by
  have hsel : selected s b = some i := by simp [selected, hw, hd, decoded]
  rw [acceptByte, hsel]
  exact performParser_eq_exec (encodeInvertsDecode w i hd).2 s

/-- Settles O39: taking a byte from the transport and observing it leaves the parser word as it was. -/
theorem stepRunsDecodedOperation : Obligations.StepRunsDecodedOperation := by
  intro s b w i hs ht hw hd
  have hkey (rx : List RxAnswer) (rxAfter : RxTail) : keyOf
      { s with rx := rx, rxAfter := rxAfter, trace := s.trace ++ [.consumed b], serving := true } b = some w := hw
  constructor
  · intro rest hrx
    obtain ⟨hread, hafter⟩ := rxAnswer_cons hrx
    rw [step_byte hs ht hread, hafter]
    exact acceptByte_of_word (hkey rest s.rxAfter) hd
  · intro hrx htail
    obtain ⟨hread, hafter⟩ := rxAnswer_nil hrx
    rw [step_byte hs ht (hread.trans htail), hafter]
    exact acceptByte_of_word (hkey s.rx (tailNext s.rxAfter)) hd

/-! ## The format of a frame (R80) -/

/-- Splitting the assembled length gives its two bytes (R83, R84). -/
theorem length_bytes (hi lo : Byte) :
    lengthHi (256 * hi.toNat + lo.toNat) = hi ∧ lengthLo (256 * hi.toNat + lo.toNat) = lo := by
  have hlo := lo.isLt
  constructor
  · rw [lengthHi, show (256 * hi.toNat + lo.toNat) / 256 = hi.toNat by omega]
    simp
  · rw [lengthLo, show (256 * hi.toNat + lo.toNat) % 256 = lo.toNat by omega]
    simp

/-- The checks of `decodeFrame` leave nothing of a frame open but SEQ and the payload. -/
theorem frame_of_decodeFrame {f : List Byte} {seq : Byte} {p : List Byte} (h : decodeFrame f = .ok (seq, p)) :
    p.length < 65536 ∧ f = frameBytes seq p := by
  unfold decodeFrame at h
  split at h
  case h_2 => cases h
  case h_1 start seq' hi lo tok rest =>
    split_ifs at h with hstart htok hlen hck
    cases h
    rw [ne_eq, not_not] at hstart htok hlen
    subst hstart htok
    have hp : rest.dropLast.length = 256 * hi.toNat + lo.toNat := by simp [hlen]
    have hheader : frameHeader seq rest.dropLast.length =
        [Config.startSentinel, seq, hi, lo, Config.tokenSentinel] := by
      rw [hp, frameHeader, (length_bytes hi lo).1, (length_bytes hi lo).2]
    have hrest := List.dropLast_append_getLast? _ hck
    refine ⟨by have := hi.isLt; have := lo.isLt; omega, ?_⟩
    rw [frameBytes, frameBody, hheader]
    simpa using hrest.symm

/-- A byte sequence reads as a frame exactly when it is that frame. -/
theorem decodeFrame_ok_iff {f : List Byte} {seq : Byte} {p : List Byte} :
    decodeFrame f = .ok (seq, p) ↔ p.length < 65536 ∧ f = frameBytes seq p := by
  constructor
  · exact frame_of_decodeFrame
  · rintro ⟨hp, rfl⟩
    exact Laws.decodeFrame_frameBytes seq hp

theorem take_header_frameBytes (seq : Byte) (p : List Byte) :
    (frameBytes seq p).take 5 = frameHeader seq p.length := rfl

theorem take_payload_frameBytes (seq : Byte) (p : List Byte) : ((frameBytes seq p).drop 5).take p.length = p := by
  simp [frameBytes, frameBody, frameHeader]

/-- Only the checksum byte makes the XOR of all bytes 0 (R85). -/
theorem checksum_of_xorAll_zero {l : List Byte} {c : Byte} (h : xorAll (l ++ [c]) = 0) : c = xorAll l := by
  rw [xorAll_snoc] at h
  exact (BitVec.xor_eq_zero_iff.1 h).symm

/-- Header, payload and residue fix every byte of a frame. -/
theorem frameBytes_of_parts {f : List Byte} {seq : Byte} {p : List Byte} (hlen : f.length = p.length + 6)
    (hheader : f.take 5 = frameHeader seq p.length) (hpay : (f.drop 5).take p.length = p) (hxor : xorAll f = 0) :
    f = frameBytes seq p := by
  have hbody : f.take (5 + p.length) = frameBody seq p := by rw [List.take_add, hheader, hpay, frameBody]
  obtain ⟨c, hc⟩ : ∃ c, f.drop (5 + p.length) = [c] := List.length_eq_one_iff.1 (by simp [hlen]; omega)
  have hf : f = frameBody seq p ++ [c] := by rw [← hbody, ← hc, List.take_append_drop]
  rw [hf] at hxor
  rw [hf, frameBytes, checksum_of_xorAll_zero hxor]

/-- Settles O37: what reads as a frame is that frame, and the conditions of R80, R85 and R141 single it out. -/
theorem frameFormatIsExact : Obligations.FrameFormatIsExact := by
  intro f seq p
  rw [decodeFrame_ok_iff]
  constructor
  · rintro ⟨hp, rfl⟩
    exact ⟨hp, frameBytes_length seq p, take_header_frameBytes seq p, take_payload_frameBytes seq p,
      xorAll_frameBytes seq p⟩
  · rintro ⟨hp, hlen, hheader, hpay, hxor⟩
    exact ⟨hp, frameBytes_of_parts hlen hheader hpay hxor⟩

/-- The bytes of the error response, written out (R88). -/
theorem errorFrame_eq (seq : Byte) :
    errorFrame seq = [0x1B, seq, 0x00, 0x02, 0x0E, 0xB0, 0xC1, 0x66 ^^^ seq] := by
  have hck : xorAll (frameBody seq errorPayload) = 0x66 ^^^ seq := by
    show 0x1B ^^^ (seq ^^^ (0x00 ^^^ (0x02 ^^^ (0x0E ^^^ (0xB0 ^^^ (0xC1 ^^^ 0)))))) = 0x66 ^^^ seq
    rw [← BitVec.xor_assoc, BitVec.xor_comm 0x1B, BitVec.xor_assoc, BitVec.xor_comm 0x66]
    rfl
  rw [errorFrame, frameBytes, hck]
  rfl

/-! ## Whole frames in the streams (R87) -/

/-- Settles O34: the payload length is in the range that FRAME.REQ asks for. -/
theorem requestJoinsReceiveStream : Obligations.RequestJoinsReceiveStream := fun _ _ _ hp => if_pos hp

/-- A frame that stands in `BUF` with the cursor at 0 goes whole into the transmit stream (R163, R164). -/
theorem sendFrame_pending {s : State} {frame : List Byte} (ht : s.txc = some 0) (h0 : 0 < s.txlen)
    (hc : s.txlen ≤ s.capacity) (hf : Memory.slice s.buf 0 s.txlen = frame) :
    sendFrame s frame = .next { s with txc := none, serving := true, trace := s.trace ++ [.accepted frame] } := by
  have hp : isPendingFrame s frame = true := by simp [isPendingFrame, State.offered, ht, h0, hf]
  rw [sendFrame, if_pos hp, if_pos hc]
  rfl

/-- Settles O35, as a pending frame sent whole. -/
theorem responseJoinsTransmitStream : Obligations.ResponseJoinsTransmitStream :=
  fun _ _ _ ht hl hc hf => sendFrame_pending ht (by omega) hc hf

/-- Settles O36: the literal bytes are those of ERRFRAME. -/
theorem errorResponseJoinsTransmitStream : Obligations.ErrorResponseJoinsTransmitStream := by
  intro s seq ht hl hc hf
  show sendFrame s (errorFrame seq) = _
  rw [errorFrame_eq]
  exact sendFrame_pending ht (by omega) hc (by rwa [hl])

end Sys2Proof.Machine

/-! # The parser operations (40_parser.md)

`acceptByte_next` with `Accepts` says of every parser operation that completes what it does; the rows of the selector
map (`acceptByte_start` and its siblings) say which operation that is. A statement about one operation joins the two. -/

namespace Sys2Proof.Machine

/-- The operation that the selector picks completes as `Accepts` says (R110). -/
theorem exec_of_accepts {i : Instr} {b : Byte} {s t : State} (ht : s.txc = none)
    (hrow : acceptByte b s = exec i s) (ha : Accepts b s t) : exec i s = .next t ∧ acceptByte b s = exec i s :=
  ⟨hrow ▸ acceptByte_next.2 ⟨ht, ha⟩, hrow⟩

/-! ## Header bytes (R111 to R118) -/

/-- Settles O1. -/
theorem syncStartsFrame : Obligations.SyncStartsFrame := fun _ ht hst =>
  exec_of_accepts ht ((acceptByte_start _ hst).trans (if_pos rfl)) (.sync hst rfl)

/-- Settles O2. -/
theorem skipIgnoresNoise : Obligations.SkipIgnoresNoise := fun _ b ht hst hb =>
  exec_of_accepts ht ((acceptByte_start b hst).trans (if_neg hb)) (.skip hst hb)

/-- Settles O3. -/
theorem seqByteStored : Obligations.SeqByteStored := fun _ b ht hst =>
  exec_of_accepts ht (acceptByte_waitSeq b hst) (.seq hst)

/-- Settles O4. -/
theorem lengthHighByteStored : Obligations.LengthHighByteStored := fun _ b ht hst =>
  exec_of_accepts ht (acceptByte_waitLenMsb b hst) (.lenh hst)

/-- Settles O5: the bounds are those of LEN_VALID. -/
theorem lengthLowByteAccepted : Obligations.LengthLowByteAccepted := by
  intro s b ht hst hpos hmax
  have hvalid : lenValid s b = true := lenValid_iff.2 ⟨hpos, (maxp_eq s).symm ▸ hmax⟩
  exact exec_of_accepts ht ((acceptByte_waitLenLsb b hst).trans (if_pos hvalid)) (.lenl hst hvalid)

/-- Settles O6: a length outside the bounds is not LEN_VALID. -/
theorem lengthLowByteRejected : Obligations.LengthLowByteRejected := by
  intro s b ht hst hout
  have hinvalid : ¬ lenValid s b = true := by
    rw [lenValid_iff, maxp_eq]
    omega
  exact exec_of_accepts ht ((acceptByte_waitLenLsb b hst).trans (if_neg hinvalid))
    (.lenlDrop hst (Bool.eq_false_iff.2 hinvalid))

/-- Settles O7. -/
theorem tokenRecognised : Obligations.TokenRecognised := fun _ ht hst =>
  exec_of_accepts ht ((acceptByte_waitToken _ hst).trans (if_pos rfl)) (.token hst rfl)

/-- Settles O8. -/
theorem badTokenDropsFrame : Obligations.BadTokenDropsFrame := fun _ b ht hst hb =>
  exec_of_accepts ht ((acceptByte_waitToken b hst).trans (if_neg hb)) (.tokenBad hst hb)

/-! ## Payload bytes (R119, R120) -/

/-- Settles O9: `CNT + 2 <= LEN <= CAPACITY - 6` bounds the offset. -/
theorem payloadByteStored : Obligations.PayloadByteStored := by
  intro s b ht hst hmore hlen hwf
  rw [maxp_eq] at hlen
  have hrow : acceptByte b s = exec (.pData b) s := (acceptByte_data b hst).trans (if_pos hmore)
  obtain ⟨hexec, -⟩ := exec_of_accepts ht hrow (.data hst hmore (by omega))
  exact ⟨by omega, _, hexec, hrow.trans hexec, rfl, read_write hwf (5 + s.cnt) b⟩

/-- Settles O10: `CNT + 1 = LEN <= CAPACITY - 6` bounds the offset. -/
theorem lastPayloadByteStored : Obligations.LastPayloadByteStored := by
  intro s b ht hst hlast hlen hwf
  rw [maxp_eq] at hlen ⊢
  have hrow : acceptByte b s = exec (.pDataLast b) s :=
    (acceptByte_data b hst).trans ((if_neg (by omega)).trans (if_pos hlast))
  obtain ⟨hexec, -⟩ := exec_of_accepts ht hrow (.dataLast hst hlast (by omega))
  exact ⟨by omega, by omega, _, hexec, hrow.trans hexec, rfl, hlast, read_write hwf (5 + s.cnt) b⟩

/-! ## A good checksum (R121, R144 to R146) -/

/-- With `R = 0` the completed call leaves the registers, and `BUF` with the Processor's bytes (R146). -/
theorem completeCall_silent {s : State} {a : ProcAnswer} (h : a.length = 0) :
    (s.completeCall a).txc = s.txc ∧ (s.completeCall a).ck = s.ck ∧ (s.completeCall a).txlen = s.txlen ∧
      (s.completeCall a).buf = Memory.writeCells s.buf Config.head a.writes := by
  rw [completeCall_zero _ _ h]
  exact ⟨rfl, rfl, rfl, rfl⟩

/-- With `R > 0` the completed call arms the frame of the first `R` bytes of the region as the Processor left it, and
touches no other byte from offset 5 on but the checksum (R145, R147). -/
theorem completeCall_armed {s : State} {a : ProcAnswer} (h : 0 < a.length) (hwf : Memory.wf s.buf = true) :
    (s.completeCall a).txc = some 0 ∧ (s.completeCall a).txlen = a.length + 6 ∧
      Memory.slice (s.completeCall a).buf 0 (a.length + 6) =
        frameBytes s.seq (Memory.slice (Memory.writeCells s.buf Config.head a.writes) Config.head a.length) ∧
      ∀ i, Config.head ≤ i → i ≠ Config.head + a.length →
        Memory.read (s.completeCall a).buf i = Memory.read (Memory.writeCells s.buf Config.head a.writes) i := by
  have hwf' : Memory.wf (s.afterCall a).buf = true := wf_writeCells hwf Config.head a.writes
  have htxlen : ((s.afterCall a).arm a.length).txlen = a.length + 6 := by
    show 5 + a.length + 1 = _
    omega
  have hframe := slice_arm hwf' a.length
  rw [htxlen] at hframe
  rw [completeCall_pos _ _ h]
  exact ⟨rfl, htxlen, hframe, fun i h1 h2 => read_arm_of_ne hwf' h1 h2⟩

/-- D.CALL completes the call where `CK` holds a zero residue (R142, R144). -/
theorem execDCall_completes {s : State} {a : ProcAnswer} (ht : s.txc = none) (hck : s.ck = 0)
    (hl : s.len.toNat ≤ s.maxp) (ha : s.answeredBy a) (hf : answerFits s.maxp a = true) :
    exec .dCall s = .next (s.completeCall a) :=
  (ifSelected_of _ ht (by simp [hck])).trans (callProcessor_next.2 ⟨hl, a, ha, hf, rfl⟩)

/-- Settles O11: P.CKSUM.OK is the completed call from the state with `CK = 0` and `ST = START`. -/
theorem goodChecksumCallsProcessor : Obligations.GoodChecksumCallsProcessor := by
  intro s b a ht hst hb hl ha hf hwf
  have hzero : ckZero s b = true := ckZero_iff.2 (BitVec.xor_eq_zero_iff.2 hb.symm)
  have hrow : acceptByte b s = exec (.pCksumOk b) s := (acceptByte_waitCksum b hst).trans (if_pos hzero)
  obtain ⟨hexec, -⟩ := exec_of_accepts ht hrow (.cksumOk a hst hb hl ha hf)
  have hcall : exec .dCall { s with ck := 0, st := .start } = _ := execDCall_completes ht rfl hl ha hf
  refine ⟨_, hexec, hrow.trans hexec, hexec.trans hcall.symm, ?_, fun h0 => ?_, fun hpos => ?_, fun i hi => ?_⟩
  · have hframe := completeCall_frame { s with ck := 0, st := .start } a
    rwa [completeCall_trace] at hframe
  · obtain ⟨htxc, hck, htxlen, hbuf⟩ := completeCall_silent (s := { s with ck := 0, st := .start }) h0
    exact ⟨htxc.trans ht, hck, htxlen, hbuf⟩
  · exact completeCall_armed hpos hwf
  · exact read_writeCells_of_ne hwf hi

/-! ## A bad checksum (R122, R143) -/

/-- The checksum that arming computes is that of the frame of the payload in place (R147). -/
theorem armChecksum_eq {s : State} (h : Memory.wf s.buf = true) (n : Nat) :
    s.armChecksum n = xorAll (frameBody s.seq (Memory.slice s.buf Config.head n)) := by
  rw [State.armChecksum, slice_framed h, frameBody, slice_length]

/-- The checksum byte of ERRFRAME (R88). -/
theorem xorAll_errorBody (seq : Byte) : xorAll (frameBody seq errorPayload) = 0x66 ^^^ seq := by
  have hlast := congrArg List.getLast? (errorFrame_eq seq)
  simpa [errorFrame, frameBytes] using hlast

/-- `BUF` with the payload of the error response at `BUF[HEAD]` (R143). -/
def State.withErrorPayload (s : State) : State := { s with buf := Memory.writeBytes s.buf Config.head errorPayload }

theorem errorResponse_eq_arm (s : State) : s.errorResponse = s.withErrorPayload.arm 2 := rfl

theorem wf_withErrorPayload {s : State} (h : Memory.wf s.buf = true) : Memory.wf s.withErrorPayload.buf = true :=
  wf_writeBytes h _ _

theorem slice_withErrorPayload {s : State} (h : Memory.wf s.buf = true) :
    Memory.slice s.withErrorPayload.buf Config.head 2 = errorPayload :=
  slice_writeBytes h Config.head errorPayload

theorem read_withErrorPayload {s : State} (h : Memory.wf s.buf = true) {a : Nat} (ha : 8 ≤ a) :
    Memory.read s.withErrorPayload.buf a = Memory.read s.buf a := by
  have hout : ¬ (Config.head ≤ a ∧ a < Config.head + errorPayload.length) := by
    show ¬ (5 ≤ a ∧ a < 5 + 2)
    omega
  exact (read_writeBytes h Config.head errorPayload a).trans (if_neg hout)

/-- D.ERR leaves ERRFRAME(SEQ) pending: its checksum in `CK`, its bytes at the bottom of `BUF`, and every other byte as
it was (R143). -/
theorem errorResponse_spec {s : State} (h : Memory.wf s.buf = true) :
    s.errorResponse.ck = 0x66 ^^^ s.seq ∧ Memory.slice s.errorResponse.buf 0 8 = errorFrame s.seq ∧
      ∀ a, 8 ≤ a → Memory.read s.errorResponse.buf a = Memory.read s.buf a := by
  have hwf := wf_withErrorPayload h
  have hck := armChecksum_eq hwf 2
  have hframe := slice_arm hwf 2
  rw [slice_withErrorPayload h] at hck hframe
  rw [errorResponse_eq_arm]
  refine ⟨hck.trans (xorAll_errorBody s.seq), hframe, fun a ha => ?_⟩
  rw [read_arm_of_ne hwf (show 5 ≤ a by omega) (show a ≠ 5 + 2 by omega), read_withErrorPayload h ha]

/-- Settles O12: P.CKSUM.ERR leaves the error response pending. -/
theorem badChecksumArmsErrorResponse : Obligations.BadChecksumArmsErrorResponse := by
  intro s b ht hst hne hcap hwf
  have hzero : ¬ ckZero s b = true := by rwa [ckZero_iff]
  have hrow : acceptByte b s = exec (.pCksumErr b) s := (acceptByte_waitCksum b hst).trans (if_neg hzero)
  have hcap' : 7 < s.capacity := (capacityValid_iff.1 hcap).1
  obtain ⟨hexec, -⟩ := exec_of_accepts ht hrow (.cksumErr hst hne hcap')
  obtain ⟨hck, hframe, hrest⟩ := errorResponse_spec (s := { s with ck := s.ck ^^^ b, st := .start }) hwf
  refine ⟨_, hexec, hrow.trans hexec, ?_, hframe.trans (errorFrame_eq s.seq), hrest⟩
  rw [← hck]
  rfl

/-! ## Every byte is accepted (R123) -/

/-- What a parser operation needs of the state in order to complete. Reading and observing a byte do not touch it,
while `Inv` also speaks of the bytes consumed and does not hold between the read and the operation. -/
structure Receptive (s : State) : Prop where
  /-- The error response fits into `BUF` (R7). -/
  capacity : 7 < s.capacity
  /-- I4, in the states that write or dispatch the payload. -/
  length : s.st = .data ∨ s.st = .waitCksum → s.len.toNat ≤ s.maxp
  /-- I5, state DATA. -/
  count : s.st = .data → s.cnt < s.len.toNat
  /-- The Processor keeps its contract (R184). -/
  contract : s.processorKeepsContract

theorem Inv.receptive {s : State} (h : Inv s) (hc : s.processorKeepsContract) : Receptive s where
  capacity := (capacityValid_iff.1 h.capacity).1
  length := fun hst => (h.length (.inr hst)).2
  count := h.countData
  contract := hc

/-- In each parser state and for each byte some operation has an effect (R123). -/
theorem Receptive.accepts {s : State} (h : Receptive s) (b : Byte) : ∃ t, Accepts b s t := by
  cases hst : s.st with
  | start =>
    by_cases hb : b = 0x1B
    · exact ⟨_, .sync hst hb⟩
    · exact ⟨_, .skip hst hb⟩
  | waitSeq => exact ⟨_, .seq hst⟩
  | waitLenMsb => exact ⟨_, .lenh hst⟩
  | waitLenLsb =>
    cases hv : lenValid s b with
    | true => exact ⟨_, .lenl hst hv⟩
    | false => exact ⟨_, .lenlDrop hst hv⟩
  | waitToken =>
    by_cases hb : b = 0x0E
    · exact ⟨_, .token hst hb⟩
    · exact ⟨_, .tokenBad hst hb⟩
  | data =>
    have hcount := h.count hst
    have hlength := h.length (.inl hst)
    rw [maxp_eq] at hlength
    by_cases hmore : s.cnt + 1 < s.len.toNat
    · exact ⟨_, .data hst hmore (by omega)⟩
    · exact ⟨_, .dataLast hst (by omega) (by omega)⟩
  | waitCksum =>
    by_cases hb : s.ck ^^^ b = 0
    · exact ⟨_, .cksumOk s.processorAnswer hst (BitVec.xor_eq_zero_iff.1 hb).symm (h.length (.inr hst))
        (answeredBy_processorAnswer s) (processorAnswer_fits h.contract)⟩
    · exact ⟨_, .cksumErr hst hb h.capacity⟩

/-- `accept_byte` completes in receive mode (R123). -/
theorem Receptive.acceptByte_completes {s : State} (h : Receptive s) (ht : s.txc = none) (b : Byte) :
    ∃ t, acceptByte b s = .next t := by
  obtain ⟨t, ha⟩ := h.accepts b
  exact ⟨t, acceptByte_next.2 ⟨ht, ha⟩⟩

/-- The operation that the selector picks is the one that the parser word decodes to (R91). -/
theorem selected_eq_some {s : State} {b : Byte} {i : Instr} :
    selected s b = some i ↔ ∃ w, keyOf s b = some w ∧ decode .parser w = .ok i := by
  have hdecoded (r : Except DecodeError Instr) : decoded r = some i ↔ r = .ok i := by
    cases r <;> simp [decoded]
  simp only [selected, Option.bind_eq_some_iff, hdecoded]

/-- A byte that is accepted is accepted by the operation that the selector picks (R110). -/
theorem selected_of_acceptByte {s t : State} {b : Byte} (h : acceptByte b s = .next t) :
    ∃ i, selected s b = some i ∧ acceptByte b s = exec i s := by
  cases hsel : selected s b with
  | none => simp [acceptByte, hsel] at h
  | some i =>
    obtain ⟨w, hw, hd⟩ := selected_eq_some.1 hsel
    exact ⟨i, rfl, acceptByte_of_word hw hd⟩

/-- Settles O14: `Receptive` holds of the state as it is and with the byte read and observed. -/
theorem everyByteIsAccepted : Obligations.EveryByteIsAccepted := by
  intro s b hinv ht hc
  have hs : Receptive s := hinv.receptive hc
  have hread : Receptive { s.observe (.consumed b) with serving := true } := { hs with }
  obtain ⟨t, hcomplete⟩ := hs.acceptByte_completes ht b
  exact ⟨selected_of_acceptByte hcomplete, ⟨t, hcomplete⟩, hread.acceptByte_completes ht b⟩

/-! ## Transmit mode (R110, R148, R166) -/

/-- While a response is pending no parser or dispatch operation exists, whatever its selector and effect. -/
theorem ifSelected_transmitting {s : State} {k : Nat} (hk : s.txc = some k) (c : Bool) (r : Result) :
    ifSelected s c r = .refused .transmitting := by
  simp [ifSelected, hk]

/-- Settles O15: each of the seventeen operations begins with `ifSelected`, and `accept_byte` completes in receive mode
only. -/
theorem noParsingWhileTransmitting : Obligations.NoParsingWhileTransmitting := by
  intro s b k r n hk
  constructor
  · intro i hi
    fin_cases hi <;> exact ifSelected_transmitting hk _ _
  · intro t h
    obtain ⟨hidle, -⟩ := acceptByte_next.1 h
    exact absurd (hk.symm.trans hidle) nofun

end Sys2Proof.Machine

/-! # Dispatch and response (41_dispatch_response.md)

D.RESP and D.ARM are both `arm_response`, so one account of the armed frame (`slice_arm` read part by part) serves them;
D.ERR and D.CALL are the error response and the completed call. What a whole step can do to the cursor and to the
observed events is read off `Micro` and `Accepts`: only the two checksum operations touch either in receive mode. -/

namespace Sys2Proof.Machine

/-! ## When a response is armed (R145 to R148) -/

theorem armChecked_next {n : Nat} {s t : State} :
    armChecked n s = .next t ↔ 0 < n ∧ n ≤ s.maxp ∧ t = s.arm n := by
  unfold armChecked
  split <;> simp_all [eq_comm]

theorem armChecked_refused {n : Nat} {s : State} (h : n = 0 ∨ s.maxp < n) : armChecked n s = .refused .armLength :=
  if_neg (by omega)

/-- D.ARM, both ways. -/
theorem exec_dArm_next {n : Nat} {s t : State} :
    exec (.dArm n) s = .next t ↔ s.txc = none ∧ 0 < n ∧ n ≤ s.maxp ∧ t = s.arm n := by
  show ifSelected s true (armChecked n s) = _ ↔ _
  simp [ifSelected_next, armChecked_next]

/-- Within its precondition D.RESP is D.ARM (R145). -/
theorem exec_dResp_eq_dArm {r : Nat} (s : State) (h : 0 < r) : exec (.dResp r) s = exec (.dArm r) s := by
  show ifSelected s (decide (0 < r)) (armChecked r s) = ifSelected s true (armChecked r s)
  rw [decide_eq_true h]

/-- Settles O18. -/
theorem responseFramed : Obligations.ResponseFramed := by
  intro s r ht hpos hmax
  have harm : exec (.dArm r) s = .next (s.arm r) := exec_dArm_next.2 ⟨ht, hpos, hmax, rfl⟩
  exact ⟨_, (exec_dResp_eq_dArm s hpos).trans harm, harm⟩

/-- Settles O19. -/
theorem noResponseChangesNothing : Obligations.NoResponseChangesNothing := fun _ ht => ifSelected_of _ ht rfl

/-- Settles O22: a length above `MAXP` is positive, so D.RESP comes to the same check. -/
theorem armLengthOutsideRangeRefused : Obligations.ArmLengthOutsideRangeRefused := by
  intro s n ht hn
  have harm : exec (.dArm n) s = .refused .armLength := (ifSelected_of _ ht rfl).trans (armChecked_refused hn)
  exact ⟨harm, fun hmax => (exec_dResp_eq_dArm s (by omega)).trans harm⟩

/-! ## The armed frame (R147, R151) -/

section
variable {s : State} (h : Memory.wf s.buf = true) (n : Nat)
include h

/-- All of the armed frame but its checksum byte (R85, R147). -/
theorem slice_arm_body :
    Memory.slice (s.arm n).buf 0 (Config.head + n) = frameBody s.seq (Memory.slice s.buf Config.head n) := by
  have hframe := congrArg (List.take (Config.head + n)) (slice_arm h n)
  rwa [arm_txlen, take_slice _ _ _ _ (Nat.le_add_right _ _), frameBytes,
    List.take_left' (by simp [Config.head])] at hframe

theorem slice_arm_header : Memory.slice (s.arm n).buf 0 Config.head = frameHeader s.seq n := by
  have hbody := congrArg (List.take Config.head) (slice_arm_body h n)
  rw [take_slice _ _ _ _ (Nat.le_add_right _ _), frameBody, slice_length] at hbody
  exact hbody

/-- `CK` is the XOR of the armed frame's other bytes as they stand in `BUF` (R149). -/
theorem arm_ck_eq_xorAll : (s.arm n).ck = xorAll (Memory.slice (s.arm n).buf 0 (Config.head + n)) := by
  rw [slice_arm_body h, arm_ck, armChecksum_eq h]

theorem read_arm_checksum : Memory.read (s.arm n).buf (Config.head + n) = (s.arm n).ck := by
  rw [arm_buf, read_write (wf_framed h n), if_pos rfl, arm_ck]

/-- The payload stays in place (R147). -/
theorem slice_arm_payload :
    Memory.slice (s.arm n).buf Config.head n = Memory.slice s.buf Config.head n :=
  slice_congr fun _ hlow hhigh => read_arm_of_ne h hlow hhigh.ne

end

theorem arm_txlen_eq (s : State) (n : Nat) : (s.arm n).txlen = n + 6 := by
  show 5 + n + 1 = n + 6
  omega

/-- Settles O20, each part from the law of the armed frame that states it. -/
theorem armFramesPayload : Obligations.ArmFramesPayload := by
  intro s n ht hpos hmax hwf
  refine ⟨s.arm n, exec_dArm_next.2 ⟨ht, hpos, hmax, rfl⟩, slice_arm_header hwf n, arm_ck_eq_xorAll hwf n,
    read_arm_checksum hwf n, fun a hlow hne => read_arm_of_ne hwf hlow hne, ?_⟩
  rw [← arm_txlen_eq s n]
  rfl

/-- Settles O21: `MAXP` fits the 16-bit LEN, so the armed frame reads back. -/
theorem armedFrameIsWellFormed : Obligations.ArmedFrameIsWellFormed := by
  intro s t n hwf hcap h
  obtain ⟨-, hpos, hmax, rfl⟩ := exec_dArm_next.1 h
  have hle : n ≤ s.capacity - 6 := maxp_eq s ▸ hmax
  obtain ⟨hmin, hmaxcap⟩ := capacityValid_iff.1 hcap
  have hpayload := slice_arm_payload hwf n
  refine ⟨hpos, hmax, ?_, ?_, hpayload⟩
  · rw [arm_txlen_eq, arm_capacity]
    omega
  · rw [slice_arm hwf, show Memory.slice (s.arm n).buf 5 n = _ from hpayload]
    exact Laws.decodeFrame_frameBytes s.seq (by rw [slice_length]; omega)

/-! ## The error response and the call (R143, R144) -/

/-- Settles O16: the error response fits the smallest `CAPACITY`. -/
theorem errorResponseBuilt : Obligations.ErrorResponseBuilt := by
  intro s ht hne hcap hwf
  have hroom : 7 < s.capacity := (capacityValid_iff.1 hcap).1
  obtain ⟨hck, hframe, hrest⟩ := errorResponse_spec hwf
  refine ⟨s.errorResponse, ?_, ?_, hframe.trans (errorFrame_eq s.seq), hrest⟩
  · exact (ifSelected_of _ ht (bne_iff_ne.2 hne)).trans (ifInBuffer_of _ hroom)
  · rw [← hck]
    rfl

/-- D.RESP or D.NONE, picked by the returned length, completes the call (R144 to R146). -/
theorem completeCall_eq_response {s : State} {a : ProcAnswer} (ht : s.txc = none) (hmax : a.length ≤ s.maxp) :
    (if 0 < a.length then exec (.dResp a.length) (s.afterCall a) else exec .dNone (s.afterCall a)) =
      .next (s.completeCall a) := by
  split
  case isTrue hpos =>
    rw [completeCall_pos _ _ hpos, exec_dResp_eq_dArm _ hpos]
    exact exec_dArm_next.2 ⟨ht, hpos, hmax, rfl⟩
  case isFalse hzero =>
    rw [completeCall_zero _ _ (by omega)]
    exact noResponseChangesNothing _ ht

/-- Settles O17: the state between the call and the response is the one `afterCall` leaves. -/
theorem processorCallCompletes : Obligations.ProcessorCallCompletes := by
  intro s a ht hck hl ha hf hwf
  have hcall : exec .dCall s = .next (s.completeCall a) := execDCall_completes ht hck hl ha hf
  exact ⟨s.afterCall a, hcall.trans (completeCall_eq_response ht (length_of_fits hf)).symm, ⟨_, hcall⟩, rfl,
    fun before _ _ hwrites hlast => by
      rw [afterCall_buf, hwrites]
      exact read_writeCells_last hwf before hlast,
    fun _ hi => read_writeCells_of_ne hwf hi⟩

/-! ## What a step does to the cursor and the observed events (R142, R152) -/

/-- A step is a micro-step of the engine, the turn taken; or the peer or the driver moves, and then nothing is observed
and no response is armed. -/
theorem step_micro_or_quiet {s t : State} (h : step s = .next t) :
    (∃ rest, fetch s = fetchMicro { s with schedule := rest } ∧ Micro { s with schedule := rest } t) ∨
      t.trace = s.trace ∧ (t.txc = s.txc ∨ t.txc = none) := by
  cases step_next.1 h with
  | engine _ hs hm => exact .inl ⟨s.schedule, fetch_engine hs, hm⟩
  | turn rest _ hs hm => exact .inl ⟨rest, by simp [fetch, hs], hm⟩
  | request => exact .inr ⟨rfl, .inl rfl⟩
  | construct c g => exact .inr ⟨by cases g <;> rfl, .inr rfl⟩

/-- Only a checksum byte arms a response, from its first byte and with the parser back in START (R152). -/
theorem accepts_arms {b : Byte} {s t : State} {k : Nat} (ha : Accepts b s t) (ht : s.txc = none)
    (hk : t.txc = some k) : s.st = .waitCksum ∧ t.st = .start ∧ k = 0 := by
  cases ha with
  | cksumOk a hst =>
    rcases Nat.eq_zero_or_pos a.length with hzero | hpos
    · rw [completeCall_zero _ _ hzero] at hk
      exact absurd (ht.symm.trans hk) nofun
    · rw [completeCall_pos _ _ hpos] at hk ⊢
      exact ⟨hst, rfl, (Option.some.inj hk).symm⟩
  | cksumErr hst => exact ⟨hst, rfl, (Option.some.inj hk).symm⟩
  | _ => exact absurd (ht.symm.trans hk) nofun

/-- A micro-step from receive mode that leaves a response pending read a checksum byte. -/
theorem micro_arms {s t : State} {k : Nat} (hm : Micro s t) (ht : s.txc = none) (hk : t.txc = some k) :
    s.st = .waitCksum ∧ t.st = .start ∧ k = 0 ∧ ∃ b, (fetchMicro s).1 = .sRxByte b := by
  cases hm with
  | noData => exact absurd (ht.symm.trans hk) nofun
  | byte b _ _ hr ha =>
    obtain ⟨hst, hstart, hzero⟩ := accepts_arms ha ht hk
    exact ⟨hst, hstart, hzero, b, by rw [fetchMicro_read ht hr, readStep]⟩
  | stall _ hpending | part _ _ hpending | done _ hpending => exact absurd (ht.symm.trans hpending) nofun

/-- Settles O50: neither the peer nor the driver arms a response, and the engine does so by a checksum byte. -/
theorem responseArmedOnlyByChecksumByte : Obligations.ResponseArmedOnlyByChecksumByte := by
  intro s t k ht h hk
  rcases step_micro_or_quiet h with ⟨rest, hfetch, hm⟩ | ⟨-, hsame | hidle⟩
  · rw [hfetch]
    exact micro_arms hm ht hk
  · exact absurd (ht.symm.trans (hsame.symm.trans hk)) nofun
  · exact absurd (hidle.symm.trans hk) nofun

/-- A parser operation observes nothing, or it is P.CKSUM.OK and observes its one invocation (R142). -/
theorem accepts_trace {b : Byte} {s t : State} (ha : Accepts b s t) :
    t.trace = s.trace ∨
      s.st = .waitCksum ∧ b = s.ck ∧ ∃ r resp, t.trace = s.trace ++ [.called s.payload r resp] := by
  cases ha with
  | cksumOk a hst hb => exact .inr ⟨hst, hb, _, _, completeCall_trace _ a⟩
  | _ => exact .inl rfl

/-- A micro-step that observes an invocation read the byte equal to `CK` in state WAIT_CKSUM, and observed that byte and
this invocation alone. -/
theorem micro_called {s t : State} {p resp : List Byte} {r : Nat} (hm : Micro s t)
    (hc : Event.called p r resp ∈ t.trace.drop s.trace.length) :
    s.st = .waitCksum ∧ s.txc = none ∧ (fetchMicro s).1 = .sRxByte s.ck ∧ p = s.payload ∧
      t.trace = s.trace ++ [.consumed s.ck, .called p r resp] := by
  cases hm with
  | noData | stall | part | done => simp at hc
  | byte b _ ht hr ha =>
    rcases accepts_trace ha with hquiet | ⟨hst, hb, r', resp', hcall⟩
    · simp [hquiet] at hc
    · obtain rfl : b = s.ck := hb
      have htrace : t.trace = s.trace ++ [.consumed s.ck, .called s.payload r' resp'] := by
        rw [hcall, List.append_assoc]
        rfl
      rw [htrace, List.drop_left] at hc
      obtain ⟨rfl, rfl, rfl⟩ : p = s.payload ∧ r = r' ∧ resp = resp' := by simpa using hc
      exact ⟨hst, ht, by rw [fetchMicro_read ht hr, readStep], rfl, htrace⟩

/-- Settles O52: neither the peer nor the driver calls the Processor, and the engine does so by P.CKSUM.OK alone. -/
theorem processorCalledOnlyForGoodFrames : Obligations.ProcessorCalledOnlyForGoodFrames := by
  intro s t p resp r h hc
  rcases step_micro_or_quiet h with ⟨rest, hfetch, hm⟩ | ⟨hquiet, -⟩
  · rw [hfetch]
    exact micro_called hm hc
  · simp [hquiet] at hc

end Sys2Proof.Machine

/-! # The service driver (42_service_driver.md)

The three transmit micro-steps share `ifPending`, and a write's answer picks among them by `writeStep`. `Micro` says
what each micro-step does to `serving` and to the transport, so that a call which is never starved of bytes and never
refused a write goes on for ever. -/

namespace Sys2Proof.Machine

/-! ## The micro-steps (R162 to R165) -/

/-- With a pending response that lies in `BUF` a transmit micro-step is its effect at the cursor. -/
theorem ifPending_of {s : State} {k : Nat} (hk : s.txc = some k) (hlt : k < s.txlen) (hcap : s.txlen ≤ s.capacity)
    (r : Nat → Result) : ifPending s r = r k := by
  have hlast : s.txlen - 1 < s.capacity := by omega
  simp only [ifPending, hk, if_pos hlt]
  exact ifInBuffer_of _ hlast

/-- Settles O24. -/
theorem noDataReturns : Obligations.NoDataReturns := fun _ ht => sRxNodata_next.2 ⟨ht, rfl⟩

/-- Settles O25. -/
theorem stallReturns : Obligations.StallReturns := fun _ _ hk hlt hcap => ifPending_of hk hlt hcap _

/-- Settles O27. -/
theorem completeWriteReturnsToReceive : Obligations.CompleteWriteReturnsToReceive :=
  fun _ _ hk hlt hcap => ifPending_of hk hlt hcap _

/-- Settles O26: the bytes handed over and those offered next are the two parts of what was offered. -/
theorem shortWriteAdvancesCursor : Obligations.ShortWriteAdvancesCursor := by
  intro s k n hk hcap hpos hshort
  have hexec : exec (.sTxPart n) s = _ :=
    (ifPending_of hk (by omega) hcap _).trans (if_pos ⟨hpos, hshort⟩)
  have hoffered : Memory.slice s.buf (k + n) (s.txlen - (k + n)) = (s.offered k).drop n := by
    rw [State.offered, drop_slice _ _ _ _ hshort.le, Nat.sub_sub]
  exact ⟨_, hexec, rfl, rfl, (take_slice _ _ _ _ hshort.le).symm, hoffered⟩

/-! ## Which micro-step a write is (R160, R95) -/

theorem writeStep_all (n : Nat) : writeStep n n = .sTxDone := if_pos rfl

theorem writeStep_zero {offered : Nat} (h : 0 < offered) : writeStep 0 offered = .sTxStall := by
  rw [writeStep, if_neg h.ne, if_pos rfl]

theorem writeStep_short {n offered : Nat} (h0 : 0 < n) (h : n < offered) : writeStep n offered = .sTxPart n := by
  rw [writeStep, if_neg h.ne, if_neg h0.ne']

/-- The micro-step of a write under the limit `m`. -/
theorem writeStep_min {m offered : Nat} (h : 0 < offered) :
    writeStep (min m offered) offered =
      if offered ≤ m then .sTxDone else if m = 0 then .sTxStall else .sTxPart m := by
  rcases Nat.lt_or_ge m offered with hlt | hge
  · rw [min_eq_left hlt.le, if_neg hlt.not_ge]
    rcases Nat.eq_zero_or_pos m with rfl | hpos
    · rw [writeStep_zero h, if_pos rfl]
    · rw [writeStep_short hpos hlt, if_neg hpos.ne']
  · rw [min_eq_right hge, if_pos hge, writeStep_all]

/-! ## A step as the operation that is fetched -/

theorem step_engine {s : State} (hs : s.schedule = []) : step s = microStep s := by
  rw [step, fetch_engine hs, microStep]

theorem step_of_fetch {s u : State} {i : Instr} (h : fetch s = (i, u)) : step s = exec i u := by
  rw [step, h]

/-- A read that answers nothing is S.RX.NODATA, the answer taken. -/
theorem step_read_noData {s : State} (hs : s.schedule = []) (ht : s.txc = none) (hr : s.rxAnswer = .noData) :
    step s = exec .sRxNodata s.afterRead :=
  step_of_fetch ((fetch_engine hs).trans (fetchMicro_read ht hr))

/-- A write is the micro-step of the number of bytes accepted, its limit taken. -/
theorem step_write {s : State} {k : Nat} (hs : s.schedule = []) (hk : s.txc = some k) :
    step s = exec (writeStep (accepts s.wr s.wrAfter (s.txlen - k)) (s.txlen - k)) { s with wr := s.wr.tail } :=
  step_of_fetch ((fetch_engine hs).trans (fetchMicro_write hk))

/-- With no limit listed a write takes none. -/
theorem takeLimit_nil {s : State} (h : s.wr = []) : { s with wr := s.wr.tail } = s := by
  have htail : s.wr.tail = s.wr := by rw [h, List.tail_nil]
  rw [htail]

/-- Settles O40: the turns by `fetch`, the reads by what `T.read_byte()` answers, the writes by `writeStep_min`. -/
theorem stepRunsFetchedOperation : Obligations.StepRunsFetchedOperation := by
  intro s
  refine ⟨fun rest hs => ?framer, step_engine, fun q p rest hs => ?peer, fun c g rest hs => ?construct,
    fun hs ht hrx hquiet => ?silent, fun hs ht hrx hquiet => ?endless, fun rest hs ht hrx => ?listed,
    fun k m rest hs hk hlt hw => ?limit, fun k m hs hk hlt hw hafter => ?standing, fun k hs hk hw hafter => ?all⟩
  case framer => exact step_of_fetch (by simp [fetch, hs])
  case peer => exact step_of_fetch (by simp [fetch, hs])
  case construct => exact step_of_fetch (by simp [fetch, hs])
  case silent =>
    obtain ⟨hread, hrest⟩ := rxAnswer_nil hrx
    have hsame : s.afterRead = s := by rw [hrest, hquiet, tailNext, ← hquiet]
    rw [step_read_noData hs ht (by rw [hread, hquiet, tailAnswer]), hsame]
  case endless =>
    obtain ⟨hread, hrest⟩ := rxAnswer_nil hrx
    rw [step_read_noData hs ht (hread.trans hquiet), hrest]
  case listed =>
    obtain ⟨hread, hrest⟩ := rxAnswer_cons hrx
    rw [step_read_noData hs ht hread, hrest]
  case limit =>
    rw [step_write hs hk, hw, accepts, writeStep_min (Nat.sub_pos_of_lt hlt), List.tail_cons]
  case standing =>
    rw [step_write hs hk, takeLimit_nil hw, hw, hafter, accepts, writeStep_min (Nat.sub_pos_of_lt hlt)]
  case all =>
    rw [step_write hs hk, takeLimit_nil hw, hw, hafter, accepts, writeStep_all]

/-! ## When `service` returns (R167) -/

/-- A parser operation changes neither the agents nor the control position of the call. -/
theorem accepts_frame {b : Byte} {s t : State} (ha : Accepts b s t) :
    t = { s with
      st := t.st, ck := t.ck, seq := t.seq, len := t.len, cnt := t.cnt, buf := t.buf, txc := t.txc
      txlen := t.txlen, procState := t.procState, trace := t.trace } := by
  cases ha with
  | cksumOk a =>
    rcases Nat.eq_zero_or_pos a.length with hzero | hpos
    · rw [completeCall_zero _ _ hzero]
      rfl
    · rw [completeCall_pos _ _ hpos]
      rfl
  | _ => rfl

/-- S.RX.NODATA and S.TX.STALL end the call, every other micro-step continues it. -/
theorem micro_serving {s t : State} (hm : Micro s t) :
    t.serving = false ↔ (fetchMicro s).1 = .sRxNodata ∨ (fetchMicro s).1 = .sTxStall := by
  cases hm with
  | noData ht hr => simp [fetchMicro_read ht hr, readStep]
  | byte b _ ht hr ha =>
    have hserving : t.serving = true := by rw [accepts_frame ha]
    simp [fetchMicro_read ht hr, readStep, hserving]
  | stall k hk hlt _ hw => simp [fetchMicro_write hk, hw, writeStep_zero (Nat.sub_pos_of_lt hlt)]
  | part k n hk _ _ hw h0 hn => simp [fetchMicro_write hk, hw, writeStep_short h0 hn]
  | done k hk _ _ hw => simp [fetchMicro_write hk, hw, writeStep_all]

/-! ## A call that need not return (R168, R272) -/

/-- Under the invariants and the Processor's contract some micro-step has an effect (R123, R160). -/
theorem micro_exists {s : State} (h : Inv s) (hc : s.processorKeepsContract) : ∃ t, Micro s t := by
  cases hk : s.txc with
  | none =>
    cases hr : s.rxAnswer with
    | noData => exact ⟨_, .noData hk hr⟩
    | byte b =>
      have hread : Receptive { s with
          rx := s.afterRead.rx, rxAfter := s.afterRead.rxAfter
          trace := s.trace ++ [.consumed b], serving := true } := { h.receptive hc with }
      obtain ⟨t, ha⟩ := hread.accepts b
      exact ⟨t, .byte b t hk hr ha⟩
  | some k =>
    obtain ⟨hlt, -, hcap⟩ := h.cursor k hk
    have hle := accepts_le s.wr s.wrAfter (s.txlen - k)
    rcases hle.eq_or_lt with hall | hshort
    · exact ⟨_, .done k hk hlt hcap hall⟩
    · rcases Nat.eq_zero_or_pos (accepts s.wr s.wrAfter (s.txlen - k)) with hnone | hpos
      · exact ⟨_, .stall k hk hlt hcap hnone⟩
      · exact ⟨_, .part k _ hk hlt hcap rfl hpos hshort⟩

/-- An endless sequence of bytes answers a byte and stays one. -/
theorem tailSends_next {r : RxTail} (h : tailSends r) : tailAnswer r ≠ .noData ∧ tailSends (tailNext r) := by
  cases r with
  | silent => exact h.elim
  | repeats a rest =>
    refine ⟨h a List.mem_cons_self, ?_⟩
    cases rest with
    | nil => exact h
    | cons b rest =>
      intro x hx
      refine h x ?_
      simp only [List.mem_cons, List.mem_append] at hx ⊢
      tauto
  | free k n =>
    refine ⟨?_, fun m hm => h m (Nat.le_of_succ_le hm)⟩
    cases hanswer : Config.rxAnswer k n with
    | none => exact absurd hanswer (h n le_rfl)
    | some b => simp [tailAnswer, hanswer]

theorem State.fedWithoutEnd.rxAnswer_ne {s : State} (h : s.fedWithoutEnd) : s.rxAnswer ≠ .noData := by
  obtain ⟨hlisted, htail⟩ := h
  cases hrx : s.rx with
  | nil =>
    rw [(rxAnswer_nil hrx).1]
    exact (tailSends_next htail).1
  | cons a rest =>
    rw [(rxAnswer_cons hrx).1]
    exact hlisted a (by simp [hrx])

theorem State.fedWithoutEnd.afterRead {s : State} (h : s.fedWithoutEnd) : s.afterRead.fedWithoutEnd := by
  obtain ⟨hlisted, htail⟩ := h
  cases hrx : s.rx with
  | nil =>
    rw [(rxAnswer_nil hrx).2]
    exact ⟨hlisted, (tailSends_next htail).2⟩
  | cons a rest =>
    rw [(rxAnswer_cons hrx).2]
    exact ⟨fun x hx => hlisted x (by simp [hrx, hx]), htail⟩

/-- Something is accepted of every write that offers something. -/
theorem State.neverRefused.accepts_pos {s : State} (h : s.neverRefused) {offered : Nat} (hpos : 0 < offered) :
    0 < accepts s.wr s.wrAfter offered := by
  obtain ⟨hlisted, hafter⟩ := h
  cases hwr : s.wr with
  | cons m rest => exact lt_min (hlisted m (by simp [hwr])) hpos
  | nil =>
    cases hlimit : s.wrAfter with
    | none => exact hpos
    | some m =>
      have hm : 0 < m := Nat.pos_of_ne_zero (by simpa [hlimit] using hafter)
      exact lt_min hm hpos

theorem State.neverRefused.takeLimit {s : State} (h : s.neverRefused) :
    (∀ m ∈ s.wr.tail, 0 < m) ∧ s.wrAfter ≠ some 0 :=
  ⟨fun m hm => h.1 m (List.mem_of_mem_tail hm), h.2⟩

/-- The state of a call that nothing ends: the invariants, a Processor within its contract, bytes to every read and no
write refused. -/
structure KeptBusy (s : State) : Prop where
  /-- R38. -/
  inv : Inv s
  /-- R184. -/
  contract : s.processorKeepsContract
  /-- The peer sends without an end. -/
  fed : s.fedWithoutEnd
  /-- The transport takes something of every write. -/
  writes : s.neverRefused

/-- A micro-step of a call kept busy continues the call and keeps it busy. -/
theorem KeptBusy.micro {s t : State} (h : KeptBusy s) (hm : Micro s t) : KeptBusy t ∧ t.serving = true := by
  have hinv : Inv t := inv_micro h.inv hm
  cases hm with
  | noData _ hr => exact absurd hr h.fed.rxAnswer_ne
  | byte b _ _ _ ha =>
    have hframe := accepts_frame ha
    have hfed : s.afterRead.fedWithoutEnd := h.fed.afterRead
    rw [hframe] at hinv ⊢
    exact ⟨⟨hinv, h.contract, hfed, h.writes⟩, rfl⟩
  | stall k _ hlt _ hw => exact absurd hw (h.writes.accepts_pos (Nat.sub_pos_of_lt hlt)).ne'
  | part | done => exact ⟨⟨hinv, h.contract, h.fed, h.writes.takeLimit⟩, rfl⟩

theorem KeptBusy.microStep {s : State} (h : KeptBusy s) :
    ∃ t, microStep s = .next t ∧ KeptBusy t ∧ t.serving = true := by
  obtain ⟨t, hm⟩ := micro_exists h.inv h.contract
  exact ⟨t, microStep_next.2 hm, h.micro hm⟩

theorem service_succ {s t : State} (n : Nat) (h : microStep s = .next t) (ht : t.serving = true) :
    service (n + 1) s = service n t := by
  simp [service, h, ht]

/-- However many micro-steps it is given, a call kept busy is still going on after them. -/
theorem KeptBusy.service_serving {s : State} (h : KeptBusy s) (n : Nat) :
    ∃ t, service (n + 1) s = .next t ∧ t.serving = true := by
  induction n generalizing s with
  | zero =>
    obtain ⟨t, hstep, -, hserving⟩ := h.microStep
    exact ⟨t, service_succ 0 hstep hserving, hserving⟩
  | succ n ih =>
    obtain ⟨u, hstep, hbusy, hserving⟩ := h.microStep
    rw [service_succ (n + 1) hstep hserving]
    exact ih hbusy

/-- Settles O28: the first clause from what each micro-step does to `serving`, the second from a call kept busy. -/
theorem serviceReturnsOnlyOnStall : Obligations.ServiceReturnsOnlyOnStall := by
  refine ⟨fun s t hs h => ?_, fun s n hinv hcontract hfed hwrites hn => ?_⟩
  · rw [fetch_engine hs]
    exact micro_serving ((step_engine_next hs).1 h)
  · have hbusy : KeptBusy s := ⟨hinv, hcontract, hfed, hwrites⟩
    obtain ⟨n, rfl⟩ := Nat.exists_eq_add_one.2 hn
    exact hbusy.service_serving n

end Sys2Proof.Machine

/-! # The Processor's interface (43_external_interfaces.md)

An answer outside the contract of R184 is too long or writes outside the payload region. `callProcessor` looks at the
length first, so the two breaches give one fault each. -/

namespace Sys2Proof.Machine

/-- In receive mode with a zero residue D.CALL is the call of the Processor (R92, R144). -/
theorem exec_dCall_eq_callProcessor {s : State} (ht : s.txc = none) (hck : s.ck = 0) :
    exec .dCall s = callProcessor s :=
  ifSelected_of _ ht (by simp [hck])

/-- A write outside the payload region breaks the contract (R184). -/
theorem answerFits_eq_false_of_write {m : Nat} {a : ProcAnswer} (h : ∃ c ∈ a.writes, m ≤ c.1) :
    answerFits m a = false := by
  obtain ⟨c, hc, hout⟩ := h
  exact Bool.eq_false_iff.2 fun hfits => (writes_of_fits hfits c hc).not_ge hout

/-- Of a region that lies in `BUF`, an answer longer than `MAXP` is the length fault, whatever it writes (U3). -/
theorem callProcessor_of_length {s : State} {a : ProcAnswer} (hl : s.len.toNat ≤ s.maxp) (ha : s.answeredBy a)
    (hlong : s.maxp < a.length) : callProcessor s = .fault .processorLength := by
  obtain rfl := answeredBy_iff.1 ha
  exact (if_neg hl.not_gt).trans (if_pos hlong)

/-- Of a region that lies in `BUF`, an answer of a valid length that still breaks the contract is the region
fault (U3). -/
theorem callProcessor_of_not_fits {s : State} {a : ProcAnswer} (hl : s.len.toNat ≤ s.maxp) (ha : s.answeredBy a)
    (hlen : a.length ≤ s.maxp) (hf : answerFits s.maxp a = false) :
    callProcessor s = .fault .processorRegion := by
  obtain rfl := answeredBy_iff.1 ha
  exact (if_neg hl.not_gt).trans ((if_neg hlen.not_gt).trans (if_neg (Bool.eq_false_iff.1 hf)))

/-- Settles O23: the length is looked at before the contract as a whole, so each breach has its own fault. -/
theorem processorBreachFaults : Obligations.ProcessorBreachFaults := by
  intro s a ht hck hl ha
  rw [exec_dCall_eq_callProcessor ht hck]
  exact ⟨callProcessor_of_length hl ha,
    fun hlen hout => callProcessor_of_not_fits hl ha hlen (answerFits_eq_false_of_write hout)⟩

end Sys2Proof.Machine

/-! # Bytes consumed one after another (44_properties.md)

The source's properties speak of a state and of a sequence of bytes that its transport hands over. `Reached` is what is
known of the state in the middle of such a sequence; it is extended by one byte and its parser operation at a time, so
a property of a frame is a chain of parser operations. -/

namespace Sys2Proof.Machine

/-! ## The operation that the selector picks -/

/-- An operation is picked when its word is the one that the state and the byte make (R91). -/
theorem selected_of_word {i : Instr} {w : List Byte} {s : State} {b : Byte} (hi : i.wellFormed = true)
    (he : encode i = some (.parser, w)) (hk : keyOf s b = some w) : selected s b = some i :=
  selected_eq_some.2 ⟨w, hk, decode_encode i hi _ _ he⟩

/-- The operation `i` is the one picked for the byte `b` in `s`, and it leaves `t`. -/
structure Performs (i : Instr) (b : Byte) (s t : State) : Prop where
  /-- R91. -/
  picked : selected s b = some i
  /-- R110. -/
  effect : Accepts b s t

section
variable {s : State}

theorem performs_pSync (h : s.st = .start) : Performs .pSync 0x1B s { s with ck := 0x1B, st := .waitSeq } :=
  ⟨selected_of_word rfl rfl (by simp [keyOf, guardBit, h, Config.startSentinel]), .sync h rfl⟩

theorem performs_pSkip {b : Byte} (h : s.st = .start) (hb : b ≠ 0x1B) : Performs (.pSkip b) b s s :=
  ⟨selected_of_word (wellFormed_pSkip hb) rfl (by simp [keyOf, guardBit, h]), .skip h hb⟩

theorem performs_pSeq (b : Byte) (h : s.st = .waitSeq) :
    Performs (.pSeq b) b s { s with ck := s.ck ^^^ b, seq := b, st := .waitLenMsb } :=
  ⟨selected_of_word rfl rfl (by simp [keyOf, guardBit, h]), .seq h⟩

theorem performs_pLenh (b : Byte) (h : s.st = .waitLenMsb) :
    Performs (.pLenh b) b s { s with ck := s.ck ^^^ b, len := lengthHigh b, st := .waitLenLsb } :=
  ⟨selected_of_word rfl rfl (by simp [keyOf, guardBit, h]), .lenh h⟩

theorem performs_pLenl {b : Byte} (h : s.st = .waitLenLsb) (hv : lenValid s b = true) :
    Performs (.pLenl b) b s { s with ck := s.ck ^^^ b, len := lengthLow s.len b, cnt := 0, st := .waitToken } :=
  ⟨selected_of_word rfl rfl (by simp [keyOf, guardBit, h, hv]), .lenl h hv⟩

theorem performs_pLenlDrop {b : Byte} (h : s.st = .waitLenLsb) (hv : lenValid s b = false) :
    Performs (.pLenlDrop b) b s { s with ck := s.ck ^^^ b, len := lengthLow s.len b, cnt := 0, st := .start } :=
  ⟨selected_of_word rfl rfl (by simp [keyOf, guardBit, h, hv]), .lenlDrop h hv⟩

theorem performs_pToken (h : s.st = .waitToken) :
    Performs .pToken 0x0E s { s with ck := s.ck ^^^ 0x0E, st := .data } :=
  ⟨selected_of_word rfl rfl (by simp [keyOf, guardBit, h, Config.tokenSentinel]), .token h rfl⟩

theorem performs_pData (b : Byte) (h : s.st = .data) (hmore : s.cnt + 1 < s.len.toNat)
    (hroom : 5 + s.cnt < s.capacity) :
    Performs (.pData b) b s
      { s with ck := s.ck ^^^ b, cnt := s.cnt + 1, buf := Memory.write s.buf (5 + s.cnt) b } :=
  ⟨selected_of_word rfl rfl (by simp [keyOf, guardBit, h, moreBytes, hmore]), .data h hmore hroom⟩

theorem performs_pDataLast (b : Byte) (h : s.st = .data) (hlast : s.cnt + 1 = s.len.toNat)
    (hroom : 5 + s.cnt < s.capacity) :
    Performs (.pDataLast b) b s
      { s with ck := s.ck ^^^ b, cnt := s.cnt + 1, buf := Memory.write s.buf (5 + s.cnt) b, st := .waitCksum } :=
  ⟨selected_of_word rfl rfl (by simp [keyOf, guardBit, h, moreBytes, lastByte, hlast]), .dataLast h hlast hroom⟩

theorem performs_pCksumOk {b : Byte} {a : ProcAnswer} (h : s.st = .waitCksum) (hb : b = s.ck)
    (hl : s.len.toNat ≤ s.maxp) (ha : s.answeredBy a) (hf : answerFits s.maxp a = true) :
    Performs (.pCksumOk b) b s ({ s with ck := 0, st := .start }.completeCall a) := by
  have hzero : ckZero s b = true := ckZero_iff.2 (BitVec.xor_eq_zero_iff.2 hb.symm)
  exact ⟨selected_of_word rfl rfl (by simp [keyOf, guardBit, h, hzero]), .cksumOk a h hb hl ha hf⟩

theorem performs_pCksumErr {b : Byte} (h : s.st = .waitCksum) (hb : s.ck ^^^ b ≠ 0) (hcap : 7 < s.capacity) :
    Performs (.pCksumErr b) b s { s with ck := s.ck ^^^ b, st := .start }.errorResponse :=
  ⟨selected_of_word rfl rfl (by simp [keyOf, guardBit, h, ckZero_false.2 hb]), .cksumErr h hb hcap⟩

end

/-! ## A step that consumes a byte -/

/-- The state on which the parser operation of the byte `b` acts: the byte is taken from the transport and observed,
inside a `service` call (R161). -/
def State.took (s : State) (b : Byte) : State :=
  { s with
    rx := s.afterRead.rx, rxAfter := s.afterRead.rxAfter
    trace := s.trace ++ [.consumed b], serving := true }

theorem run_one {s t : State} (h : step s = .next t) : run 1 s = .next t := run_succ h

/-- A run of some steps is a step and the run of the rest. -/
theorem run_succ_next {n : Nat} {s t : State} :
    run (n + 1) s = .next t ↔ ∃ u, step s = .next u ∧ run n u = .next t := by
  cases h : step s <;> simp [run, h]

theorem operations_succ {n : Nat} {s t : State} (h : step s = .next t) :
    operations (n + 1) s = operations 1 s ++ operations n t := by
  simp [operations, h]

theorem operations_add {n m : Nat} {s t : State} (h : run n s = .next t) :
    operations (n + m) s = operations n s ++ operations m t := by
  induction n generalizing s with
  | zero =>
    cases h
    simp [operations]
  | succ n ih =>
    obtain ⟨u, hstep, hrun⟩ := run_succ_next.1 h
    rw [Nat.add_right_comm, operations_succ hstep, operations_succ (n := n) hstep, ih hrun, List.append_assoc]

/-- A byte read is a step by the operation picked for it. -/
theorem step_performs {i : Instr} {b : Byte} {s t : State} (hs : s.schedule = []) (ht : s.txc = none)
    (hr : s.rxAnswer = .byte b) (hp : Performs i b (s.took b) t) : step s = .next t ∧ operations 1 s = [i] := by
  have hstep : step s = .next t := (step_byte hs ht hr).trans (acceptByte_next.2 ⟨ht, hp.effect⟩)
  have hfetch : fetch s = (.sRxByte b, s.afterRead) := (fetch_engine hs).trans (fetchMicro_read ht hr)
  have hpicked : selected s.afterRead b = some i := hp.picked
  exact ⟨hstep, by simp [operations, hfetch, hpicked, hstep]⟩

/-! ## The bytes still to come -/

/-- The transport of `t` has these bytes for the next reads and is then as the transport of `v` (R180). -/
def State.offers : State → List Byte → State → Prop
  | t, [], v => t.rx = v.rx ∧ t.rxAfter = v.rxAfter
  | t, b :: rest, v => t.rxAnswer = .byte b ∧ t.afterRead.offers rest v

/-- Only the transport decides what is offered. -/
theorem offers_congr {bytes : List Byte} {t t' v : State} (hrx : t'.rx = t.rx) (hafter : t'.rxAfter = t.rxAfter)
    (h : t.offers bytes v) : t'.offers bytes v := by
  induction bytes generalizing t t' with
  | nil => exact ⟨hrx.trans h.1, hafter.trans h.2⟩
  | cons b rest ih =>
    obtain ⟨hanswer, hrest⟩ := h
    refine ⟨?_, ih ?_ ?_ hrest⟩
    · rw [← hanswer, State.rxAnswer, hrx, hafter, State.rxAnswer]
    · simp only [afterRead_rx, hrx]
    · simp only [State.afterRead, hrx, hafter]

theorem offers_of_handsOver {bytes : List Byte} {s v : State} (h : s.handsOver bytes v) : s.offers bytes v := by
  induction bytes generalizing s with
  | nil =>
    obtain rfl : v = s := h
    exact ⟨rfl, rfl⟩
  | cons b rest ih => exact ⟨h.1, ih h.2⟩

/-! ## In the middle of a sequence of bytes -/

/-- The engine started in `s` has consumed `done` by the operations `ops` and stands in `t`, in receive mode and with
nothing but bytes observed; `rest` comes next, and the transport is then as that of `v`. -/
structure Reached (s v : State) (done rest : List Byte) (ops : List Instr) (t : State) : Prop where
  /-- One step a byte. -/
  run : run done.length s = .next t
  /-- One operation a step. -/
  operations : operations done.length s = ops
  /-- The bytes to come. -/
  offers : t.offers rest v
  /-- Nothing is armed. -/
  receive : t.txc = none
  /-- The parser's registers, `BUF` and the read side apart, `t` is `s` with the bytes observed. -/
  frame : t = { s with
    st := t.st, ck := t.ck, seq := t.seq, len := t.len, cnt := t.cnt, buf := t.buf, rx := t.rx
    rxAfter := t.rxAfter, serving := t.serving, trace := s.trace ++ done.map .consumed }

section
variable {s v t : State} {done rest : List Byte} {ops : List Instr}

theorem reached_start (ht : s.txc = none) (h : s.handsOver rest v) : Reached s v [] rest [] s where
  run := rfl
  operations := rfl
  offers := offers_of_handsOver h
  receive := ht
  frame := by simp

theorem Reached.capacity (h : Reached s v done rest ops t) : t.capacity = s.capacity := by rw [h.frame]

theorem Reached.schedule (h : Reached s v done rest ops t) : t.schedule = s.schedule := by rw [h.frame]

theorem Reached.proc (h : Reached s v done rest ops t) : t.proc = s.proc := by rw [h.frame]

theorem Reached.procState (h : Reached s v done rest ops t) : t.procState = s.procState := by rw [h.frame]

theorem Reached.trace (h : Reached s v done rest ops t) : t.trace = s.trace ++ done.map .consumed := by
  rw [h.frame]

theorem Reached.maxp (h : Reached s v done rest ops t) : t.maxp = s.maxp := by
  rw [State.maxp, State.maxp, h.capacity]

theorem Reached.consumedBytes (h : Reached s v done rest ops t) : t.consumedBytes = s.consumedBytes ++ done := by
  have hbytes : (done.map Event.consumed).filterMap Event.consumedByte = done := by
    rw [List.filterMap_map]
    exact List.filterMap_some
  rw [State.consumedBytes, h.trace, List.filterMap_append, hbytes, State.consumedBytes]

/-- The next byte is consumed by the operation picked for it. -/
theorem Reached.perform {i : Instr} {b : Byte} {t' : State} (h : Reached s v done (b :: rest) ops t)
    (hs : s.schedule = []) (hp : Performs i b (t.took b) t') :
    Machine.run (done ++ [b]).length s = .next t' ∧ Machine.operations (done ++ [b]).length s = ops ++ [i] := by
  obtain ⟨hstep, hop⟩ := step_performs (h.schedule.trans hs) h.receive h.offers.1 hp
  rw [List.length_append, List.length_singleton, run_add h.run, operations_add h.run, h.operations, hop]
  exact ⟨run_one hstep, rfl⟩

/-- A byte whose operation touches the parser's registers and `BUF` alone extends what has been reached. -/
theorem Reached.snoc {i : Instr} {b : Byte} {t' : State} (h : Reached s v done (b :: rest) ops t)
    (hs : s.schedule = []) (hp : Performs i b (t.took b) t')
    (hframe : t' = { t.took b with
      st := t'.st, ck := t'.ck, seq := t'.seq, len := t'.len, cnt := t'.cnt, buf := t'.buf }) :
    Reached s v (done ++ [b]) rest (ops ++ [i]) t' := by
  obtain ⟨hrun, hops⟩ := h.perform hs hp
  refine ⟨hrun, hops, ?_, ?_, ?_⟩
  · rw [hframe]
    exact offers_congr (t := t.afterRead) rfl rfl h.offers.2
  · rw [hframe]
    exact h.receive
  · have htrace : (t.took b).trace = s.trace ++ (done ++ [b]).map .consumed := by
      simp [State.took, h.trace]
    rw [hframe, ← htrace, State.took, h.frame]

end

end Sys2Proof.Machine

/-! # Frames consumed from idle (R200 to R204) -/

namespace Sys2Proof.Machine

section
variable {s v : State} {rest : List Byte} (hs : s.schedule = [])
include hs

/-! ## Up to the length -/

/-- From idle, START, SEQ and the high byte of the length lead to state WAIT_LEN_LSB (R111, R113, R114). -/
theorem reached_waitLenLsb (hi : s.idle) {seq hb : Byte} (h : s.handsOver ([0x1B, seq, hb] ++ rest) v) :
    ∃ t, Reached s v [0x1B, seq, hb] rest [.pSync, .pSeq seq, .pLenh hb] t ∧ t.st = .waitLenLsb ∧
      t.seq = seq ∧ t.len = lengthHigh hb ∧ t.buf = s.buf := by
  have hsync := (reached_start hi.2 h).snoc hs (performs_pSync (s := s.took 0x1B) hi.1) rfl
  have hseq := hsync.snoc hs (performs_pSeq seq rfl) rfl
  exact ⟨_, hseq.snoc hs (performs_pLenh hb rfl) rfl, rfl, rfl, rfl, rfl⟩

/-- A length outside `1 .. MAXP` drops the frame at its fourth byte (R116). -/
theorem reached_dropped (hi : s.idle) {seq hb lb : Byte} (h : s.handsOver ([0x1B, seq, hb, lb] ++ rest) v)
    (hlen : 256 * hb.toNat + lb.toNat = 0 ∨ s.maxp < 256 * hb.toNat + lb.toNat) :
    ∃ t, Reached s v [0x1B, seq, hb, lb] rest [.pSync, .pSeq seq, .pLenh hb, .pLenlDrop lb] t ∧ t.st = .start ∧
      t.buf = s.buf := by
  obtain ⟨t, ht, hst, -, htlen, hbuf⟩ := reached_waitLenLsb hs hi (seq := seq) (hb := hb) (rest := lb :: rest) h
  have hdrop : lenValid (t.took lb) lb = false := by
    have hvalue : (t.len ||| lb.setWidth 16).toNat = 256 * hb.toNat + lb.toNat := by
      rw [htlen]
      exact lengthLow_toNat hb lb
    have hmaxp : (t.took lb).maxp = s.maxp := ht.maxp
    rw [← Bool.not_eq_true, lenValid_iff, hmaxp]
    change ¬ (0 < (t.len ||| lb.setWidth 16).toNat ∧ (t.len ||| lb.setWidth 16).toNat ≤ s.maxp)
    omega
  exact ⟨_, ht.snoc hs (performs_pLenlDrop hst hdrop) rfl, rfl, hbuf⟩

/-! ## Noise and the next START -/

/-- In state START every byte but 0x1B is ignored (R112). -/
theorem Reached.skips {noise : List Byte} {t : State} {done : List Byte} {ops : List Instr}
    (h : Reached s v done (noise ++ rest) ops t) (hst : t.st = .start) (hn : ∀ b ∈ noise, b ≠ 0x1B) :
    ∃ u, Reached s v (done ++ noise) rest (ops ++ noise.map .pSkip) u ∧ u.st = .start ∧ u.buf = t.buf := by
  induction noise generalizing done ops t with
  | nil => exact ⟨t, by simpa using h, hst, rfl⟩
  | cons b noise ih =>
    have hskip := h.snoc hs (performs_pSkip (s := t.took b) hst (hn b List.mem_cons_self)) rfl
    obtain ⟨u, hu, hust, hubuf⟩ := ih hskip hst fun x hx => hn x (List.mem_cons_of_mem _ hx)
    exact ⟨u, by simpa using hu, hust, hubuf⟩

/-- In state START the byte 0x1B starts a frame (R111). -/
theorem Reached.syncs {t : State} {done : List Byte} {ops : List Instr}
    (h : Reached s v done (0x1B :: rest) ops t) (hst : t.st = .start) :
    ∃ u, Reached s v (done ++ [0x1B]) rest (ops ++ [.pSync]) u ∧ u.st = .waitSeq ∧ u.ck = 0x1B ∧ u.buf = t.buf :=
  ⟨_, h.snoc hs (performs_pSync (s := t.took 0x1B) hst) rfl, rfl, rfl, rfl⟩

end

/-- Settles O59: the frame is dropped at its length, the noise is skipped, the next START syncs. -/
theorem oversizeFrameResynchronises : Obligations.OversizeFrameResynchronises := by
  intro s v seq hb lb noise hi hs hlen hn h
  rw [List.append_assoc] at h
  obtain ⟨t, ht, htst, htbuf⟩ := reached_dropped hs hi h (.inr hlen)
  obtain ⟨u, hu, hust, hubuf⟩ := ht.skips hs htst hn
  obtain ⟨w, hw, hwst, hwck, hwbuf⟩ := hu.syncs hs hust
  have hlength : ([0x1B, seq, hb, lb] ++ noise).length = noise.length + 4 := by simp
  have hlength' : ([0x1B, seq, hb, lb] ++ noise ++ [0x1B]).length = noise.length + 5 := by simp
  refine ⟨⟨u, hlength ▸ hu.run, ⟨hust, hu.receive⟩, hu.trace⟩, w, hlength' ▸ hw.run, hwst, hwck, hw.receive, ?_,
    hlength' ▸ hw.operations, hw.trace⟩
  rw [hwbuf, hubuf, htbuf]

/-- The checksum byte of a zero-length frame is a START byte for one SEQ only (R203). -/
theorem zeroChecksum_eq_start (seq : Byte) : 0x15 ^^^ seq = 0x1B ↔ seq = 0x0E :=
  BitVec.xor_right_inj (y := 0x0E) 0x15

/-- Settles O58: the length zero drops the frame, and its last two bytes are consumed in state START. -/
theorem zeroLengthFrameDropped : Obligations.ZeroLengthFrameDropped := by
  intro s v seq hi hs h
  obtain ⟨t, ht, htst, htbuf⟩ := reached_dropped hs hi (rest := [0x0E, 0x15 ^^^ seq]) h (.inl rfl)
  obtain ⟨u, hu, hust, -⟩ := ht.skips hs (noise := [0x0E]) htst (by decide)
  refine ⟨⟨t, ht.run, ⟨htst, ht.receive⟩, htbuf, ht.trace⟩, ?_⟩
  split
  case isTrue hseq =>
    rw [(zeroChecksum_eq_start seq).2 hseq] at hu
    obtain ⟨w, hw, -⟩ := hu.syncs hs hust
    exact hw.operations
  case isFalse hseq =>
    have hnoise : ∀ b ∈ [0x15 ^^^ seq], b ≠ 0x1B :=
      List.forall_mem_singleton.2 (mt (zeroChecksum_eq_start seq).1 hseq)
    obtain ⟨w, hw, -⟩ := hu.skips hs (rest := []) hust hnoise
    exact hw.operations

/-! ## Valid frames up to the checksum byte -/

/-- A run keeps the invariants (R38). -/
theorem inv_run {n : Nat} {s t : State} (hinv : Inv s) (h : run n s = .next t) : Inv t := by
  induction n generalizing s with
  | zero =>
    cases h
    exact hinv
  | succ n ih =>
    obtain ⟨u, hstep, hrun⟩ := run_succ_next.1 h
    exact ih (invariantsKeptByEveryStep s u hinv hstep) hrun

/-- The operations that store the payload `q` (R119, R120). -/
def payloadOps (q : List Byte) : List Instr := q.dropLast.map .pData ++ (q.getLast?.map Instr.pDataLast).toList

theorem payloadOps_cons (b : Byte) {q : List Byte} (h : q ≠ []) : payloadOps (b :: q) = .pData b :: payloadOps q := by
  obtain ⟨c, q, rfl⟩ := List.exists_cons_of_ne_nil h
  simp [payloadOps]

/-- The operations of a frame up to its checksum byte (R200). -/
def bodyOps (seq : Byte) (p : List Byte) : List Instr :=
  [.pSync, .pSeq seq, .pLenh (lengthHi p.length), .pLenl (lengthLo p.length), .pToken] ++ payloadOps p

section
variable {s v : State} {rest : List Byte} (hs : s.schedule = [])
include hs

/-- From idle, the header of an acceptable length leads to state DATA (R111 to R117). -/
theorem reached_data (hi : s.idle) {seq : Byte} {n : Nat} (h : s.handsOver (frameHeader seq n ++ rest) v)
    (hpos : 0 < n) (hmax : n ≤ s.maxp) (hwidth : n < 65536) :
    ∃ t, Reached s v (frameHeader seq n) rest
        [.pSync, .pSeq seq, .pLenh (lengthHi n), .pLenl (lengthLo n), .pToken] t ∧
      t.st = .data ∧ t.seq = seq ∧ t.len.toNat = n ∧ t.cnt = 0 := by
  obtain ⟨t, ht, hst, hseq, htlen, -⟩ := reached_waitLenLsb hs hi
    (seq := seq) (hb := lengthHi n) (rest := lengthLo n :: 0x0E :: rest) h
  have hvalue : (lengthLow t.len (lengthLo n)).toNat = n := by
    rw [htlen, lengthLow_toNat, length_split hwidth]
  have hvalid : lenValid (t.took (lengthLo n)) (lengthLo n) = true := by
    have hmaxp : (t.took (lengthLo n)).maxp = s.maxp := ht.maxp
    rw [lenValid_iff, hmaxp]
    change 0 < (lengthLow t.len (lengthLo n)).toNat ∧ (lengthLow t.len (lengthLo n)).toNat ≤ s.maxp
    omega
  have hlenl := ht.snoc hs (performs_pLenl hst hvalid) rfl
  exact ⟨_, hlenl.snoc hs (performs_pToken rfl) rfl, rfl, hseq, hvalue, rfl⟩

/-- In state DATA the missing payload bytes lead to state WAIT_CKSUM (R119, R120). -/
theorem Reached.stores {q done : List Byte} {ops : List Instr} {t : State}
    (h : Reached s v done (q ++ rest) ops t) (hst : t.st = .data) (hq : q ≠ [])
    (hcnt : t.cnt + q.length = t.len.toNat) (hroom : 5 + t.len.toNat ≤ s.capacity) :
    ∃ u, Reached s v (done ++ q) rest (ops ++ payloadOps q) u ∧ u.st = .waitCksum ∧ u.seq = t.seq ∧
      u.len = t.len := by
  induction q generalizing done ops t with
  | nil => exact absurd rfl hq
  | cons b q ih =>
    rw [List.length_cons] at hcnt
    have hcap : 5 + t.cnt < t.capacity := by rw [h.capacity]; omega
    rcases eq_or_ne q [] with rfl | hq'
    · have hlast : t.cnt + 1 = t.len.toNat := hcnt
      exact ⟨_, h.snoc hs (performs_pDataLast (s := t.took b) b hst hlast hcap) rfl, rfl, rfl, rfl⟩
    · have hmore : t.cnt + 1 < t.len.toNat := by have := List.length_pos_iff.2 hq'; omega
      have hdata := h.snoc hs (performs_pData (s := t.took b) b hst hmore hcap) rfl
      have hcnt' : t.cnt + 1 + q.length = t.len.toNat := by omega
      obtain ⟨u, hu, hust, huseq, hulen⟩ := ih hdata hst hq' hcnt' hroom
      rw [payloadOps_cons b hq']
      exact ⟨u, by simpa using hu, hust, huseq, hulen⟩

/-- From idle, a frame without its checksum byte leads to state WAIT_CKSUM; its checksum is in `CK` and its payload in
`BUF` by the invariants I6 and I7. -/
theorem reached_waitCksum (hinv : Inv s) (hi : s.idle) {seq : Byte} {p : List Byte}
    (h : s.handsOver (frameBody seq p ++ rest) v) (hpos : 1 ≤ p.length) (hmax : p.length ≤ s.maxp) :
    ∃ u, Reached s v (frameBody seq p) rest (bodyOps seq p) u ∧ Inv u ∧ u.st = .waitCksum ∧ u.seq = seq ∧
      u.ck = xorAll (frameBody seq p) ∧ u.payload = p ∧ u.len.toNat = p.length := by
  have hcap := capacityValid_iff.1 hinv.capacity
  have hmaxp := maxp_eq s
  rw [frameBody, List.append_assoc] at h
  obtain ⟨t, ht, htst, htseq, htlen, htcnt⟩ := reached_data hs hi h hpos hmax (by omega)
  have hq : p ≠ [] := List.ne_nil_of_length_pos hpos
  obtain ⟨u, hu, hust, huseq, hulen⟩ := ht.stores hs htst hq (by omega) (by omega)
  have huinv : Inv u := inv_run hinv hu.run
  have hulen' : u.len.toNat = p.length := by rw [hulen, htlen]
  have hframe : u.frameSoFar = frameBody seq p := by
    have hposition : u.framePosition = 0 + (frameBody seq p).length := by
      rw [framePosition_payload (.inr hust), huinv.countCksum hust, hulen', frameBody_length, Nat.zero_add]
      rfl
    rw [State.frameSoFar, hposition, hu.consumedBytes, ← frameBody, lastOf_append, lastOf_zero, List.nil_append]
  have hpayload := huinv.payload (.inr hust)
  rw [hframe, huinv.countCksum hust] at hpayload
  refine ⟨u, hu, huinv, hust, huseq.trans htseq, ?_, hpayload, hulen'⟩
  rw [(huinv.checksum (by simp [hust])).2, hframe]

end

/-! ## The checksum byte -/

/-- Settles O57: the frame leads to state WAIT_CKSUM with its own checksum in `CK`, and P.CKSUM.ERR answers the other
byte. -/
theorem wrongChecksumByteAnswered : Obligations.WrongChecksumByteAnswered := by
  intro s v seq p c hinv hi hs hpos hmax hc h
  obtain ⟨u, hu, huinv, hust, huseq, huck, -⟩ := reached_waitCksum hs hinv hi h hpos hmax
  have hresidue : (u.took c).ck ^^^ c ≠ 0 := fun hzero =>
    hc (huck ▸ (BitVec.xor_eq_zero_iff.1 hzero).symm)
  have hroom : 7 < u.capacity := (capacityValid_iff.1 huinv.capacity).1
  have hperf := performs_pCksumErr (s := u.took c) hust hresidue hroom
  obtain ⟨-, hop⟩ := step_performs (hu.schedule.trans hs) hu.receive hu.offers.1 hperf
  obtain ⟨hrun, -⟩ := hu.perform hs hperf
  obtain ⟨-, hframe, -⟩ := errorResponse_spec (s := { u.took c with ck := u.ck ^^^ c, st := .start }) huinv.memory
  have hbody : (frameBody seq p).length = p.length + 5 := by rw [frameBody_length, Nat.add_comm]
  rw [List.length_append, hbody] at hrun
  refine ⟨u, _, hbody ▸ hu.run, hust, by rw [huck], hop, hrun, rfl, hu.offers.2.1, hu.offers.2.2, ?_, rfl, rfl, ?_⟩
  · show u.trace ++ [.consumed c] = _
    simp [hu.trace]
  · rw [← huseq, ← errorFrame_eq]
    exact hframe

/-! A completed call changes neither the parser state nor the read side, and leaves `PS` as the Processor said. -/

@[simp] theorem completeCall_st (s : State) (a : ProcAnswer) : (s.completeCall a).st = s.st := by
  rw [completeCall_frame]

@[simp] theorem completeCall_rx (s : State) (a : ProcAnswer) : (s.completeCall a).rx = s.rx := by
  rw [completeCall_frame]

@[simp] theorem completeCall_rxAfter (s : State) (a : ProcAnswer) : (s.completeCall a).rxAfter = s.rxAfter := by
  rw [completeCall_frame]

@[simp] theorem completeCall_procState (s : State) (a : ProcAnswer) :
    (s.completeCall a).procState = a.next.getD s.procState := by
  rw [completeCall_frame]

/-- Settles O56: the frame leads to state WAIT_CKSUM with its own checksum in `CK` and its payload in `BUF`, and
P.CKSUM.OK completes the call. -/
theorem validFrameRoundTrip : Obligations.ValidFrameRoundTrip := by
  intro s v seq p hinv hi hs hcontract hpos hmax h
  obtain ⟨u, hu, huinv, hust, huseq, huck, hupayload, -⟩ := reached_waitCksum hs hinv hi h hpos hmax
  have hucontract : u.processorKeepsContract := by
    rw [State.processorKeepsContract, hu.proc, hu.maxp]
    exact hcontract
  obtain ⟨hlen, a, hanswer, hfits⟩ : u.len.toNat ≤ u.maxp ∧ ∃ a, u.answeredBy a ∧ answerFits u.maxp a = true :=
    ⟨(huinv.length (.inr (.inr hust))).2, _, answeredBy_processorAnswer u, processorAnswer_fits hucontract⟩
  have hperf := performs_pCksumOk (s := u.took (xorAll (frameBody seq p))) hust huck.symm hlen hanswer hfits
  obtain ⟨hrun, hops⟩ := hu.perform hs hperf
  have hbody : (frameBody seq p).length = p.length + 5 := by rw [frameBody_length, Nat.add_comm]
  rw [List.length_append, hbody] at hrun hops
  refine ⟨u, _, a, hbody ▸ hu.run, hupayload, hu.proc, hu.procState, hanswer, hrun, ?ops,
    hu.maxp ▸ length_of_fits hfits, ?rx, ?rxAfter, ?st, ?procState, ?trace, fun hR => ?armed, fun hR => ?silent⟩
  case ops => simpa [bodyOps, payloadOps] using hops
  case rx => exact (completeCall_rx _ _).trans hu.offers.2.1
  case rxAfter => exact (completeCall_rxAfter _ _).trans hu.offers.2.2
  case st => exact completeCall_st _ _
  case procState => exact (completeCall_procState _ _).trans (congrArg a.next.getD hu.procState)
  case trace =>
    rw [completeCall_trace]
    show u.trace ++ [.consumed (xorAll (frameBody seq p))] ++ [.called u.payload _ _] = _
    rw [hu.trace, hupayload, frameBytes, List.map_append, List.append_assoc s.trace]
    rfl
  case armed =>
    obtain ⟨htxc, htxlen, hframe, -⟩ := completeCall_armed
      (s := { u.took (xorAll (frameBody seq p)) with ck := 0, st := .start }) hR huinv.memory
    refine ⟨htxc, htxlen, ?_⟩
    rw [State.offered, htxlen]
    exact hframe.trans (congrArg (frameBytes · _) huseq)
  case silent =>
    obtain ⟨htxc, -⟩ := completeCall_silent
      (s := { u.took (xorAll (frameBody seq p)) with ck := 0, st := .start }) hR
    exact ⟨completeCall_st _ _, htxc.trans hu.receive⟩

end Sys2Proof.Machine

/-! # The parser returns to START (R210)

Every byte consumed outside START lowers the bound `State.bytesToStart`, and the invariants bound it by `MAXP + 5`. -/

namespace Sys2Proof.Machine

/-- The invariants bound what a frame in progress still takes (R210). -/
theorem Inv.bytesToStart_le {s : State} (h : Inv s) : s.bytesToStart ≤ s.maxp + 5 := by
  have hlen := h.length
  unfold State.bytesToStart
  cases hst : s.st with
  | start | waitSeq | waitLenMsb | waitLenLsb | waitCksum => simp
  | waitToken =>
    have := (hlen (.inl hst)).2
    simp only
    omega
  | data =>
    have := (hlen (.inr (.inl hst))).2
    simp only
    omega

theorem bytesToStart_of_start {s : State} (h : s.st = .start) : s.bytesToStart = 0 := by
  simp [State.bytesToStart, h]

theorem bytesToStart_pos {s : State} (h : s.st ≠ .start) : 0 < s.bytesToStart := by
  cases hst : s.st with
  | start => exact absurd hst h
  | _ => simp [State.bytesToStart, hst]

/-- Outside START every parser operation brings START nearer. -/
theorem accepts_bytesToStart {b : Byte} {s t : State} (ha : Accepts b s t) (hst : s.st ≠ .start) :
    t.bytesToStart < s.bytesToStart := by
  cases ha with
  | sync h | skip h => exact absurd h hst
  | seq h | lenh h => simp [State.bytesToStart, h, State.maxp]
  | lenl h hv =>
    have hle : (lengthLow s.len b).toNat ≤ s.maxp := (lenValid_iff.1 hv).2
    simp only [State.bytesToStart, h]
    omega
  | lenlDrop h | tokenBad h => simp [State.bytesToStart, h]
  | token h =>
    simp only [State.bytesToStart, h]
    omega
  | data h hmore | dataLast h hmore =>
    simp only [State.bytesToStart, h]
    omega
  | cksumOk a h =>
    rw [bytesToStart_of_start (completeCall_st _ a)]
    simp [State.bytesToStart, h]
  | cksumErr h =>
    rw [bytesToStart_of_start (errorResponse_st _)]
    simp [State.bytesToStart, h]

/-- A parser operation consumes no byte of its own. -/
theorem accepts_consumedBytes {b : Byte} {s t : State} (ha : Accepts b s t) : t.consumedBytes = s.consumedBytes := by
  rcases accepts_trace ha with h | ⟨-, -, r, resp, h⟩ <;> simp [State.consumedBytes, h, Event.consumedByte]

/-- Under the invariants and the Processor's contract the next byte offered is consumed in one step. -/
theorem step_offered {s v : State} {b : Byte} {rest : List Byte} (hinv : Inv s) (ht : s.txc = none)
    (hs : s.schedule = []) (hc : s.processorKeepsContract) (h : s.offers (b :: rest) v) :
    ∃ t, step s = .next t ∧ Accepts b (s.took b) t ∧ t.schedule = [] ∧ t.processorKeepsContract ∧
      t.offers rest v := by
  have hread : Receptive (s.took b) := { hinv.receptive hc with }
  obtain ⟨t, ha⟩ := hread.accepts b
  have hframe := accepts_frame ha
  refine ⟨t, (step_byte hs ht h.1).trans (acceptByte_next.2 ⟨ht, ha⟩), ha, ?_, ?_, ?_⟩
  · rw [hframe]
    exact hs
  · rw [hframe]
    exact hc
  · rw [hframe]
    exact offers_congr (t := s.afterRead) rfl rfl h.2

/-- Fed with enough bytes the parser gets back to START, one byte a step (R210). -/
theorem start_reached {bytes : List Byte} {s v : State} (hinv : Inv s) (hs : s.schedule = [])
    (hc : s.processorKeepsContract) (h : s.offers bytes v) (henough : s.bytesToStart ≤ bytes.length) :
    ∃ n t, n ≤ bytes.length ∧ run n s = .next t ∧ t.st = .start ∧
      t.consumedBytes = s.consumedBytes ++ bytes.take n := by
  induction bytes generalizing s with
  | nil =>
    have hst : s.st = .start := not_not.1 fun hne => (bytesToStart_pos hne).not_ge henough
    exact ⟨0, s, le_rfl, rfl, hst, (List.append_nil _).symm⟩
  | cons b rest ih =>
    by_cases hst : s.st = .start
    · exact ⟨0, s, Nat.zero_le _, rfl, hst, (List.append_nil _).symm⟩
    have ht : s.txc = none := not_not.1 (mt hinv.interlock hst)
    obtain ⟨u, hstep, ha, hus, huc, hoffers⟩ := step_offered hinv ht hs hc h
    have hcloser : u.bytesToStart < s.bytesToStart := accepts_bytesToStart (s := s.took b) ha hst
    rw [List.length_cons] at henough
    obtain ⟨n, t, hn, hrun, htst, htbytes⟩ :=
      ih (invariantsKeptByEveryStep s u hinv hstep) hus huc hoffers (by omega)
    have hubytes : u.consumedBytes = s.consumedBytes ++ [b] := by
      rw [accepts_consumedBytes ha]
      simp [State.consumedBytes, State.took, Event.consumedByte]
    refine ⟨n + 1, t, Nat.succ_le_succ hn, (run_succ hstep).trans hrun, htst, ?_⟩
    rw [htbytes, hubytes, List.append_assoc]
    rfl

/-- Settles O53: `MAXP + 5` bytes are enough, and without input the step is S.RX.NODATA. -/
theorem parserReturnsToStart : Obligations.ParserReturnsToStart := by
  intro s u bytes hinv ht hs hc
  refine ⟨fun hlength h => ?_, step_noData hs ht⟩
  have henough : s.bytesToStart ≤ bytes.length := hlength ▸ hinv.bytesToStart_le
  obtain ⟨n, t, hn, hreached⟩ := start_reached hinv hs hc (offers_of_handsOver h) henough
  exact ⟨n, t, hlength ▸ hn, hreached⟩

end Sys2Proof.Machine

/-! # Each byte is transmitted once (R205)

A write under a limit takes the next bytes of the pending frame. `Sends` says what some writes together have done, and
two of them in a row are one. -/

namespace Sys2Proof.Machine

/-- From `s` to `t` the transport has taken the bytes `BUF[k .. k+n)`, nothing was read, and `wr` is left of the
acceptance limits. -/
structure Sends (s : State) (k n : Nat) (wr : List Nat) (t : State) : Prop where
  /-- Each byte once and in order (R50). -/
  transmitted : t.transmitted = s.transmitted ++ Memory.slice s.buf k n
  /-- No read (R65). -/
  consumed : t.consumedBytes = s.consumedBytes
  /-- The cursor, the write side and the control position apart nothing changed. -/
  frame : t = { s with txc := t.txc, wr := wr, serving := t.serving, trace := t.trace }

theorem sends_zero {s t : State} {wr : List Nat} (k : Nat)
    (h : t = { s with txc := t.txc, wr := wr, serving := t.serving }) : Sends s k 0 wr t where
  transmitted := by rw [h]; exact (List.append_nil _).symm
  consumed := by rw [h]; rfl
  frame := by rw [h]

/-- A write that the transport takes `n` bytes of. -/
theorem sends_accepted {s t : State} {k n : Nat} {wr : List Nat}
    (h : t = { s with
      txc := t.txc, wr := wr, serving := t.serving, trace := s.trace ++ [.accepted (Memory.slice s.buf k n)] }) :
    Sends s k n wr t where
  transmitted := by rw [h]; simp [State.transmitted, Event.acceptedBytes]
  consumed := consumedBytes_of_accepted (by rw [h])
  frame := by rw [h]

section
variable {s t : State} {k n : Nat} {wr : List Nat}

theorem Sends.schedule (h : Sends s k n wr t) : t.schedule = s.schedule := by rw [h.frame]

theorem Sends.capacity (h : Sends s k n wr t) : t.capacity = s.capacity := by rw [h.frame]

theorem Sends.txlen (h : Sends s k n wr t) : t.txlen = s.txlen := by rw [h.frame]

theorem Sends.limits (h : Sends s k n wr t) : t.wr = wr := by rw [h.frame]

theorem Sends.buf (h : Sends s k n wr t) : t.buf = s.buf := by rw [h.frame]

end

theorem Sends.trans {s t u : State} {k n m : Nat} {wr wr' : List Nat} (h : Sends s k n wr t)
    (h' : Sends t (k + n) m wr' u) : Sends s k (n + m) wr' u where
  transmitted := by
    rw [h'.transmitted, h.transmitted, h.buf, slice_append, List.append_assoc]
  consumed := h'.consumed.trans h.consumed
  frame := by rw [h'.frame, h.frame]

section
variable {s : State} {k : Nat} (hs : s.schedule = []) (hk : s.txc = some k) (hlt : k < s.txlen)
  (hcap : s.txlen ≤ s.capacity)
include hs hk hlt hcap

/-- A limit below what is offered leaves the cursor that much further: S.TX.STALL or S.TX.PART (R163, R165). -/
theorem step_short {m : Nat} {wr : List Nat} (hw : s.wr = m :: wr) (hm : k + m < s.txlen) :
    ∃ t, step s = .next t ∧ t.txc = some (k + m) ∧ Sends s k m wr t := by
  have haccepts : accepts s.wr s.wrAfter (s.txlen - k) = m := by
    rw [hw, accepts]
    omega
  have htail : s.wr.tail = wr := by rw [hw, List.tail_cons]
  rcases Nat.eq_zero_or_pos m with rfl | hpos
  · exact ⟨_, (step_engine_next hs).2 (.stall k hk hlt hcap haccepts), hk, sends_zero k (by rw [htail])⟩
  · exact ⟨_, (step_engine_next hs).2 (.part k m hk hlt hcap haccepts hpos (by omega)), rfl,
      sends_accepted (by rw [htail])⟩

/-- A limit of at least what is offered takes the rest: S.TX.DONE (R164). -/
theorem step_all {m : Nat} {wr : List Nat} (hw : s.wr = m :: wr) (hm : s.txlen ≤ k + m) :
    ∃ t, step s = .next t ∧ t.txc = none ∧ t.serving = true ∧ Sends s k (s.txlen - k) wr t := by
  have haccepts : accepts s.wr s.wrAfter (s.txlen - k) = s.txlen - k := by
    rw [hw, accepts]
    omega
  have htail : s.wr.tail = wr := by rw [hw, List.tail_cons]
  exact ⟨_, (step_engine_next hs).2 (.done k hk hlt hcap haccepts), rfl, rfl, sends_accepted (by rw [htail])⟩

end

/-- Limits that together leave something of the frame advance the cursor by their sum. -/
theorem run_short {limits more : List Nat} {s : State} {k : Nat} (hs : s.schedule = []) (hk : s.txc = some k)
    (hcap : s.txlen ≤ s.capacity) (hw : s.wr = limits ++ more) (hsum : k + limits.sum < s.txlen) :
    ∃ t, run limits.length s = .next t ∧ t.txc = some (k + limits.sum) ∧ Sends s k limits.sum more t := by
  induction limits generalizing s k with
  | nil => exact ⟨s, rfl, hk, sends_zero k (by rw [← show s.wr = more from hw])⟩
  | cons m limits ih =>
    rw [List.sum_cons] at hsum ⊢
    obtain ⟨u, hstep, huk, hu⟩ := step_short hs hk (by omega) hcap hw (by omega)
    have hcap' : u.txlen ≤ u.capacity := hu.txlen ▸ hu.capacity ▸ hcap
    have hsum' : k + m + limits.sum < u.txlen := by rw [hu.txlen]; omega
    obtain ⟨t, hrun, htk, ht⟩ := ih (hu.schedule.trans hs) huk hcap' hu.limits hsum'
    exact ⟨t, (run_succ hstep).trans hrun, by rw [htk, Nat.add_assoc], hu.trans ht⟩

/-- Settles O60: the limits before the last leave something, and the last takes the rest. -/
theorem transmittedExactlyOnce : Obligations.TransmittedExactlyOnce := by
  intro s k limits more hs hk hlt hcap hw
  constructor
  · intro hsum
    obtain ⟨t, hrun, htk, ht⟩ := run_short hs hk hcap hw hsum
    exact ⟨t, hrun, htk, ht.transmitted, ht.consumed, ht.frame⟩
  · rintro init last rfl hshort hsum
    rw [List.append_assoc] at hw
    obtain ⟨u, hrun, huk, hu⟩ := run_short hs hk hcap hw hshort
    rw [List.sum_append, List.sum_singleton] at hsum
    have hcap' : u.txlen ≤ u.capacity := hu.txlen ▸ hu.capacity ▸ hcap
    obtain ⟨t, hstep, htk, hserving, ht⟩ :=
      step_all (hu.schedule.trans hs) huk (hu.txlen ▸ hshort) hcap' hu.limits (by rw [hu.txlen]; omega)
    have hall := hu.trans ht
    rw [hu.txlen, show init.sum + (s.txlen - (k + init.sum)) = s.txlen - k by omega] at hall
    refine ⟨t, ?_, htk, hall.transmitted, hall.consumed, ?_⟩
    · rw [List.length_append, run_add hrun]
      exact run_one hstep
    · rw [← htk, ← hserving]
      exact hall.frame

end Sys2Proof.Machine

/-! # Registers that are not meaningful (R213)

Two states that differ in dead registers alone agree on every condition that an operation looks at, so each shared
condition (`ifSelected`, `ifInBuffer`, `ifPending`, the Processor's contract) sends both to the same outcome; the
effects of an operation on the two differ in dead registers again. -/

namespace Sys2Proof.Machine

/-! ## Outcomes that agree -/

section
variable {rel : State → State → Prop} {r r' : Result}

/-- The same condition decides both outcomes. -/
theorem sameOutcome_ite {p p' : Prop} [Decidable p] [Decidable p'] {q q' : Result} (hp : p ↔ p')
    (hr : p → SameOutcome rel r r') (hq : ¬ p → SameOutcome rel q q') :
    SameOutcome rel (if p then r else q) (if p' then r' else q') := by
  by_cases h : p
  · rw [if_pos h, if_pos (hp.1 h)]
    exact hr h
  · rw [if_neg h, if_neg (mt hp.2 h)]
    exact hq h

theorem sameOutcome_ifSelected {s t : State} {c c' : Bool} (ht : t.txc = s.txc) (hc : c' = c)
    (hr : SameOutcome rel r r') : SameOutcome rel (ifSelected s c r) (ifSelected t c' r') :=
  sameOutcome_ite (by rw [ht]) (fun _ => rfl) fun _ => sameOutcome_ite (by rw [hc]) (fun _ => hr) fun _ => rfl

theorem sameOutcome_ifInBuffer {s t : State} {a : Nat} (ht : t.capacity = s.capacity) (hr : SameOutcome rel r r') :
    SameOutcome rel (ifInBuffer s a r) (ifInBuffer t a r') :=
  sameOutcome_ite (by rw [ht]) (fun _ => hr) fun _ => rfl

end

/-! ## States that differ in dead registers -/

/-- `s` with other values in every register that is dead in some state. -/
def State.withDead (s : State) (ck seq : Byte) (len : Length) (cnt txlen : Nat) : State :=
  { s with ck := ck, seq := seq, len := len, cnt := cnt, txlen := txlen }

/-- The registers of R30 and, for each, when it is meaningful. -/
theorem sameButDead_iff {s t : State} :
    SameButDead s t ↔ ∃ ck seq len cnt txlen, t = s.withDead ck seq len cnt txlen ∧ (s.st ≠ .start → ck = s.ck) ∧
      (s.st ≠ .start → s.st ≠ .waitSeq → seq = s.seq) ∧ (s.st = .waitLenLsb ∨ s.inPayload → len = s.len) ∧
      (s.inPayload → cnt = s.cnt) ∧ (s.txc ≠ none → txlen = s.txlen) := by
  constructor
  · intro h
    exact ⟨_, _, _, _, _, h⟩
  · rintro ⟨ck, seq, len, cnt, txlen, rfl, h⟩
    exact ⟨rfl, h⟩

theorem SameButDead.refl (s : State) : SameButDead s s :=
  ⟨rfl, fun _ => rfl, fun _ _ => rfl, fun _ => rfl, fun _ => rfl, fun _ => rfl⟩

/-- In receive mode the length of the pending frame is dead in every parser state. -/
theorem sameOutcome_of_txlen {s t : State} (h : s.txc = none) (ht : t = { s with txlen := t.txlen }) :
    SameOutcome SameButDead (.next s) (.next t) := by
  rw [ht]
  exact ⟨rfl, fun _ => rfl, fun _ _ => rfl, fun _ => rfl, fun _ => rfl, fun hne => absurd h hne⟩

/-- No register is meaningful by what stands outside the parser and the pending frame. -/
theorem SameButDead.outside {s t s' t' : State} (h : SameButDead s t) (htxc : s'.txc ≠ none → s.txc ≠ none)
    (hs : s' = { s with
      txc := s'.txc, rx := s'.rx, rxAfter := s'.rxAfter, wr := s'.wr, serving := s'.serving
      schedule := s'.schedule, trace := s'.trace })
    (ht : t' = { t with
      txc := s'.txc, rx := s'.rx, rxAfter := s'.rxAfter, wr := s'.wr, serving := s'.serving
      schedule := s'.schedule, trace := s'.trace }) : SameButDead s' t' := by
  obtain ⟨ck, seq, len, cnt, txlen, rfl, hck, hseq, hlen, hcnt, htxlen⟩ := sameButDead_iff.1 h
  rw [ht, hs]
  exact ⟨rfl, hck, hseq, hlen, hcnt, fun hne => htxlen (htxc hne)⟩

/-! ## The parser operations -/

/-- The Processor sees nothing of the length of a pending frame (R186). -/
theorem sameOutcome_callProcessor {s : State} (h : s.txc = none) (n : Nat) :
    SameOutcome SameButDead (callProcessor s) (callProcessor { s with txlen := n }) := by
  have hcomplete : SameOutcome SameButDead (.next (s.completeCall s.processorAnswer))
      (.next ({ s with txlen := n }.completeCall s.processorAnswer)) := by
    rcases Nat.eq_zero_or_pos s.processorAnswer.length with hzero | hpos
    · rw [completeCall_zero _ _ hzero, completeCall_zero _ _ hzero]
      exact sameOutcome_of_txlen h rfl
    · rw [completeCall_pos _ _ hpos, completeCall_pos _ _ hpos]
      exact SameButDead.refl _
  exact sameOutcome_ite Iff.rfl (fun _ => rfl) fun _ => sameOutcome_ite Iff.rfl (fun _ => rfl) fun _ =>
    sameOutcome_ite Iff.rfl (fun _ => hcomplete) fun _ => rfl

/-- Where the length has been accepted only the length of a pending frame is dead. -/
theorem sameOutcome_acceptByte_payload {s : State} (h : s.txc = none) (hst : s.inPayload) (n : Nat) (b : Byte) :
    SameOutcome SameButDead (acceptByte b s) (acceptByte b { s with txlen := n }) := by
  rcases hst with hst | hst | hst
  · rw [acceptByte_waitToken b hst, acceptByte_waitToken (s := { s with txlen := n }) b hst]
    exact sameOutcome_ite Iff.rfl
      (fun _ => sameOutcome_ifSelected rfl rfl (sameOutcome_of_txlen h rfl))
      fun _ => sameOutcome_ifSelected rfl rfl (sameOutcome_of_txlen h rfl)
  · rw [acceptByte_data b hst, acceptByte_data (s := { s with txlen := n }) b hst]
    exact sameOutcome_ite Iff.rfl
      (fun _ => sameOutcome_ifSelected rfl rfl (sameOutcome_ifInBuffer rfl (sameOutcome_of_txlen h rfl)))
      fun _ => sameOutcome_ite Iff.rfl
        (fun _ => sameOutcome_ifSelected rfl rfl (sameOutcome_ifInBuffer rfl (sameOutcome_of_txlen h rfl)))
        fun _ => rfl
  · rw [acceptByte_waitCksum b hst, acceptByte_waitCksum (s := { s with txlen := n }) b hst]
    exact sameOutcome_ite Iff.rfl
      (fun _ => sameOutcome_ifSelected rfl rfl
        (sameOutcome_callProcessor (s := { s with ck := s.ck ^^^ b, st := .start }) h n))
      fun _ => sameOutcome_ifSelected rfl rfl (sameOutcome_ifInBuffer rfl (SameButDead.refl _))

/-- In the header a parser operation writes what it makes meaningful. -/
theorem sameOutcome_acceptByte_header {s t : State} (h : SameButDead s t) (ht : s.txc = none) (hst : ¬ s.inPayload)
    (b : Byte) : SameOutcome SameButDead (acceptByte b s) (acceptByte b t) := by
  obtain ⟨ck, seq, len, cnt, txlen, rfl, hck, hseq, hlen, -⟩ := sameButDead_iff.1 h
  cases hs : s.st with
  | waitToken | data | waitCksum => exact absurd hs (by simp_all [State.inPayload])
  | start =>
    rw [acceptByte_start b hs, acceptByte_start (s := s.withDead ck seq len cnt txlen) b hs]
    exact sameOutcome_ite Iff.rfl
      (fun _ => sameOutcome_ifSelected rfl rfl
        (show SameButDead _ _ from ⟨rfl, fun _ => rfl, fun _ h => absurd rfl h, nofun, nofun, fun h => absurd ht h⟩))
      fun _ => sameOutcome_ifSelected rfl rfl h
  | waitSeq =>
    obtain rfl := hck (by simp [hs])
    rw [acceptByte_waitSeq b hs, acceptByte_waitSeq (s := s.withDead s.ck seq len cnt txlen) b hs]
    exact sameOutcome_ifSelected rfl rfl
      (show SameButDead _ _ from ⟨rfl, fun _ => rfl, fun _ _ => rfl, nofun, nofun, fun h => absurd ht h⟩)
  | waitLenMsb =>
    obtain rfl := hck (by simp [hs])
    obtain rfl := hseq (by simp [hs]) (by simp [hs])
    rw [acceptByte_waitLenMsb b hs, acceptByte_waitLenMsb (s := s.withDead s.ck s.seq len cnt txlen) b hs]
    exact sameOutcome_ifSelected rfl rfl
      (show SameButDead _ _ from ⟨rfl, fun _ => rfl, fun _ _ => rfl, fun _ => rfl, nofun, fun h => absurd ht h⟩)
  | waitLenLsb =>
    obtain rfl := hck (by simp [hs])
    obtain rfl := hseq (by simp [hs]) (by simp [hs])
    obtain rfl := hlen (.inl hs)
    rw [acceptByte_waitLenLsb b hs, acceptByte_waitLenLsb (s := s.withDead s.ck s.seq s.len cnt txlen) b hs]
    refine sameOutcome_ite Iff.rfl (fun _ => sameOutcome_ifSelected rfl rfl (sameOutcome_of_txlen ht rfl))
      fun _ => sameOutcome_ifSelected rfl rfl ?_
    rw [lengthError_take, lengthError_take]
    exact sameOutcome_of_txlen ht rfl

/-- No parser operation reads a dead register. -/
theorem sameOutcome_acceptByte {s t : State} (h : SameButDead s t) (ht : s.txc = none) (b : Byte) :
    SameOutcome SameButDead (acceptByte b s) (acceptByte b t) := by
  by_cases hst : s.inPayload
  · have hlive : t = { s with txlen := t.txlen } := by
      obtain ⟨ck, seq, len, cnt, txlen, rfl, hck, hseq, hlen, hcnt, -⟩ := sameButDead_iff.1 h
      have hne : s.st ≠ .start ∧ s.st ≠ .waitSeq := by rcases hst with h | h | h <;> simp [h]
      obtain rfl := hck hne.1
      obtain rfl := hseq hne.1 hne.2
      obtain rfl := hlen (.inr hst)
      obtain rfl := hcnt hst
      rfl
    rw [hlive]
    exact sameOutcome_acceptByte_payload ht hst t.txlen b
  · exact sameOutcome_acceptByte_header h ht hst b

/-! ## The other steps -/

/-- The cursor, and the length that it is compared with, are meaningful (R163 to R166). -/
theorem sameOutcome_ifPending {s t : State} {r r' : Nat → Result} (h : SameButDead s t)
    (hr : ∀ k, s.txc = some k → SameOutcome SameButDead (r k) (r' k)) :
    SameOutcome SameButDead (ifPending s r) (ifPending t r') := by
  obtain ⟨ck, seq, len, cnt, txlen, rfl, -, -, -, -, htxlen⟩ := sameButDead_iff.1 h
  cases hk : s.txc with
  | none => simp [ifPending, State.withDead, hk, SameOutcome]
  | some k =>
    obtain rfl := htxlen (by simp [hk])
    simp only [ifPending, State.withDead, hk]
    exact sameOutcome_ite Iff.rfl (fun _ => sameOutcome_ifInBuffer rfl (hr k hk)) fun _ => rfl

/-- No transmit micro-step reads a dead register. -/
theorem sameOutcome_write {s t : State} {k : Nat} (h : SameButDead s t) (hk : s.txc = some k) (n offered : Nat) :
    SameOutcome SameButDead (exec (writeStep n offered) s) (exec (writeStep n offered) t) := by
  obtain ⟨ck, seq, len, cnt, txlen, rfl, -, -, -, -, htxlen⟩ := sameButDead_iff.1 h
  have hpending : s.txc ≠ none := by simp [hk]
  obtain rfl := htxlen hpending
  unfold writeStep
  split_ifs
  case pos => exact sameOutcome_ifPending h fun _ _ => h.outside nofun rfl rfl
  case pos => exact sameOutcome_ifPending h fun _ _ => h.outside id rfl rfl
  case neg =>
    exact sameOutcome_ifPending h fun _ _ =>
      sameOutcome_ite Iff.rfl (fun _ => h.outside (fun _ => hpending) rfl rfl) fun _ => rfl

/-- No micro-step of the engine reads a dead register. -/
theorem sameOutcome_microStep {s t : State} (h : SameButDead s t) :
    SameOutcome SameButDead (microStep s) (microStep t) := by
  obtain ⟨ck, seq, len, cnt, txlen, rfl, -, -, -, -, htxlen⟩ := sameButDead_iff.1 h
  cases hk : s.txc with
  | some k =>
    obtain rfl := htxlen (by simp [hk])
    rw [microStep, microStep, fetchMicro_write hk, fetchMicro_write (s := s.withDead ck seq len cnt s.txlen) hk]
    exact sameOutcome_write (s := { s with wr := s.wr.tail }) (h.outside id rfl rfl) hk _ _
  | none =>
    rw [microStep, microStep, fetchMicro_read hk rfl, fetchMicro_read (s := s.withDead ck seq len cnt txlen) hk rfl]
    change SameOutcome _ (exec (readStep s.rxAnswer) _) (exec (readStep s.rxAnswer) _)
    cases s.rxAnswer with
    | noData => exact sameOutcome_ite Iff.rfl (fun _ => rfl) fun _ => h.outside id rfl rfl
    | byte b => exact sameOutcome_acceptByte (s := s.took b) (h.outside id rfl rfl) hk b

/-- A construction gives every register its own value (R37). -/
theorem SameButDead.construct {s t : State} (h : SameButDead s t) (c : Nat) (g : Option Binding) :
    SameButDead ((s.bind g).construct c) ((t.bind g).construct c) := by
  obtain ⟨ck, seq, len, cnt, txlen, rfl, -⟩ := sameButDead_iff.1 h
  cases g <;> exact SameButDead.refl _

/-- Settles O54: the turns of the peer and of the driver look at no register of the parser. -/
theorem deadRegistersAreNeverRead : Obligations.DeadRegistersAreNeverRead := by
  intro s t h
  obtain ⟨ck, seq, len, cnt, txlen, rfl, -⟩ := sameButDead_iff.1 h
  obtain ⟨hframer, hengine, hpeer, hconstruct, -⟩ := stepRunsFetchedOperation s
  obtain ⟨hframer', hengine', hpeer', hconstruct', -⟩ :=
    stepRunsFetchedOperation (s.withDead ck seq len cnt txlen)
  cases hs : s.schedule with
  | nil =>
    rw [hengine hs, hengine' hs]
    exact sameOutcome_microStep h
  | cons turn rest =>
    cases turn with
    | framer =>
      rw [hframer rest hs, hframer' rest hs]
      exact sameOutcome_microStep (h.outside id rfl rfl)
    | peerSends q p =>
      rw [hpeer q p rest hs, hpeer' q p rest hs]
      exact sameOutcome_ite Iff.rfl (fun _ => h.outside id rfl rfl) fun _ => rfl
    | construct c g =>
      rw [hconstruct c g rest hs, hconstruct' c g rest hs]
      have hturn : SameButDead { s with schedule := rest }
          { s.withDead ck seq len cnt txlen with schedule := rest } := h.outside id rfl rfl
      exact sameOutcome_ite Iff.rfl (fun _ => rfl) fun _ => sameOutcome_ite Iff.rfl (fun _ => rfl) fun _ =>
        hturn.construct c g

end Sys2Proof.Machine

/-! # How the receive bytes are cut (R201)

A feeding with other `NoData` answers is brought to its next byte by S.RX.NODATA steps, which change nothing but what
is left to read; from there on both feedings answer alike. -/

namespace Sys2Proof.Machine

section
variable {s t : State}

theorem SameStream.trans {u : State} (h : SameStream s t) (h' : SameStream t u) : SameStream s u :=
  ⟨by rw [h'.1, h.1], h'.2.trans h.2⟩

theorem SameStream.trace (h : SameStream s t) : s.trace = t.trace := by rw [h.1]

theorem SameStream.schedule (h : SameStream s t) : t.schedule = s.schedule := by rw [h.1]

theorem SameStream.txc (h : SameStream s t) : t.txc = s.txc := by rw [h.1]

theorem sameStream_refl (s : State) : SameStream s s := ⟨rfl, rfl⟩

end

/-- No `NoData` answer is listed next. -/
def State.atByte (s : State) : Prop := ∀ rest, s.rx ≠ .noData :: rest

/-- S.RX.NODATA steps take the `NoData` answers before the next byte, or all that are listed (R162). -/
theorem run_to_byte {rx : List RxAnswer} {t : State} (hrx : t.rx = rx) (hs : t.schedule = []) (ht : t.txc = none) :
    ∃ n t', run n t = .next t' ∧ SameStream t t' ∧ t'.atByte := by
  induction rx generalizing t with
  | nil => exact ⟨0, t, rfl, sameStream_refl t, by simp [State.atByte, hrx]⟩
  | cons a rx ih =>
    cases a with
    | byte b => exact ⟨0, t, rfl, sameStream_refl t, by simp [State.atByte, hrx]⟩
    | noData =>
      obtain ⟨hread, hafter⟩ := rxAnswer_cons hrx
      have hstep := step_noData hs ht hread
      rw [hafter] at hstep
      obtain ⟨n, t', hrun, hsame, hat⟩ := ih (t := { t with rx := rx, serving := false }) rfl hs ht
      exact ⟨n + 1, t', (run_succ hstep).trans hrun, SameStream.trans ⟨rfl, by rw [hrx]; rfl⟩ hsame, hat⟩

/-- Two feedings of the same bytes that are both at their next byte answer alike, and are feedings of the same bytes
after it. -/
theorem SameStream.read {s t : State} (h : SameStream s t) (hs : s.atByte) (ht : t.atByte) :
    t.rxAnswer = s.rxAnswer ∧ t.afterRead.rxAfter = s.afterRead.rxAfter ∧
      unreadBytes t.afterRead.rx = unreadBytes s.afterRead.rx := by
  obtain ⟨hframe, hbytes⟩ := h
  have hafter : t.rxAfter = s.rxAfter := by rw [hframe]
  cases hsrx : s.rx with
  | nil =>
    cases htrx : t.rx with
    | nil =>
      rw [(rxAnswer_nil hsrx).1, (rxAnswer_nil hsrx).2, (rxAnswer_nil htrx).1, (rxAnswer_nil htrx).2, hafter]
      exact ⟨rfl, rfl, hbytes⟩
    | cons a rest =>
      cases a with
      | noData => exact absurd htrx (ht rest)
      | byte b => simp [hsrx, htrx, unreadBytes] at hbytes
  | cons a rest =>
    cases a with
    | noData => exact absurd hsrx (hs rest)
    | byte b =>
      cases htrx : t.rx with
      | nil => simp [hsrx, htrx, unreadBytes] at hbytes
      | cons a' rest' =>
        cases a' with
        | noData => exact absurd htrx (ht rest')
        | byte b' =>
          obtain ⟨rfl, hrest⟩ : b' = b ∧ unreadBytes rest' = unreadBytes rest := by
            simpa [hsrx, htrx, unreadBytes] using hbytes
          rw [(rxAnswer_cons hsrx).1, (rxAnswer_cons hsrx).2, (rxAnswer_cons htrx).1, (rxAnswer_cons htrx).2]
          exact ⟨rfl, hafter, hrest⟩

/-- A parser operation neither reads nor changes what is left to be read. -/
theorem Accepts.withRx {b : Byte} {s t : State} (ha : Accepts b s t) (rx : List RxAnswer) :
    Accepts b { s with rx := rx } { t with rx := rx } := by
  cases ha with
  | sync h hb => exact .sync h hb
  | skip h hb => exact .skip h hb
  | seq h => exact .seq h
  | lenh h => exact .lenh h
  | lenl h hv => exact .lenl h hv
  | lenlDrop h hv => exact .lenlDrop h hv
  | token h hb => exact .token h hb
  | tokenBad h hb => exact .tokenBad h hb
  | data h hc hroom => exact .data h hc hroom
  | dataLast h hc hroom => exact .dataLast h hc hroom
  | cksumOk a h hb hl hans hf =>
    have hcomplete : { ({ s with ck := 0, st := .start } : State).completeCall a with rx := rx } =
        ({ s with ck := 0, st := .start, rx := rx } : State).completeCall a := by
      rcases Nat.eq_zero_or_pos a.length with hzero | hpos
      · rw [completeCall_zero _ _ hzero, completeCall_zero _ _ hzero]
        rfl
      · rw [completeCall_pos _ _ hpos, completeCall_pos _ _ hpos]
        rfl
    rw [hcomplete]
    exact .cksumOk (s := { s with rx := rx }) a h hb hl hans hf
  | cksumErr h hb hc => exact .cksumErr (s := { s with rx := rx }) h hb hc

/-- In receive mode the next byte, or the lack of one, is met in the other feeding too. -/
theorem micro_matched_at_byte {s s' t : State} (hs : s.schedule = []) (ht : s.txc = none) (hat : s.atByte)
    (h : SameStream s t) (hm : Micro s s') : ∃ n t', run n t = .next t' ∧ SameStream s' t' := by
  obtain ⟨n, u, hrun, hu, huat⟩ := run_to_byte rfl (h.schedule.trans hs) (h.txc.trans ht)
  replace hu : SameStream s u := h.trans hu
  obtain ⟨hanswer, hafter, hbytes⟩ := hu.read hat huat
  have hus : u.schedule = [] := hu.schedule.trans hs
  have hut : u.txc = none := hu.txc.trans ht
  suffices hstep : ∃ t', step u = .next t' ∧ SameStream s' t' by
    obtain ⟨t', hstep, hsame⟩ := hstep
    exact ⟨n + 1, t', (run_add hrun).trans (run_one hstep), hsame⟩
  cases hm with
  | noData _ hr =>
    refine ⟨_, step_noData hus hut (hanswer.trans hr), ?_, hbytes⟩
    rw [hafter, hu.1]
  | byte b _ _ hr ha =>
    have htook : u.took b = { s.took b with rx := u.afterRead.rx } := by
      rw [State.took, hafter, hu.1]
      rfl
    have hmatch := Accepts.withRx ha u.afterRead.rx
    refine ⟨_, (step_byte hus hut (hanswer.trans hr)).trans (acceptByte_next.2 ⟨hut, htook ▸ hmatch⟩), rfl, ?_⟩
    rw [hbytes, accepts_frame ha]
  | stall _ hk | part _ _ hk | done _ hk => exact absurd (ht.symm.trans hk) nofun

/-- A transmit micro-step is the same on both feedings. -/
theorem micro_matched_transmit {s s' t : State} {k : Nat} (hk : s.txc = some k) (h : SameStream s t)
    (hm : Micro s s') : ∃ t', Micro t t' ∧ SameStream s' t' := by
  obtain ⟨hframe, hbytes⟩ := h
  rw [hframe]
  cases hm with
  | noData hidle | byte _ _ hidle => exact absurd (hk.symm.trans hidle) nofun
  | stall j hj hlt hcap hw => exact ⟨_, .stall j hj hlt hcap hw, rfl, hbytes⟩
  | part j n hj hlt hcap hw h0 hn => exact ⟨_, .part j n hj hlt hcap hw h0 hn, rfl, hbytes⟩
  | done j hj hlt hcap hw => exact ⟨_, .done j hj hlt hcap hw, rfl, hbytes⟩

/-- A listed `NoData` answer is read without changing the feeding. -/
theorem micro_noData_listed {s s' : State} {rest : List RxAnswer} (ht : s.txc = none) (hrx : s.rx = .noData :: rest)
    (hm : Micro s s') : s' = { s with rx := rest, serving := false } := by
  obtain ⟨hread, hafter⟩ := rxAnswer_cons hrx
  cases hm with
  | noData => rw [hafter]
  | byte b _ _ hr => exact absurd (hread.symm.trans hr) nofun
  | stall _ hk | part _ _ hk | done _ hk => exact absurd (ht.symm.trans hk) nofun

/-- Every micro-step on one feeding is matched by steps on any other feeding of the same bytes. -/
theorem micro_matched {s s' t : State} (hs : s.schedule = []) (h : SameStream s t) (hm : Micro s s') :
    ∃ n t', run n t = .next t' ∧ SameStream s' t' := by
  cases hk : s.txc with
  | some k =>
    obtain ⟨t', hm', hsame⟩ := micro_matched_transmit hk h hm
    exact ⟨1, t', run_one ((step_engine_next (h.schedule.trans hs)).2 hm'), hsame⟩
  | none =>
    by_cases hat : s.atByte
    · exact micro_matched_at_byte hs hk hat h hm
    · obtain ⟨rest, hrx⟩ : ∃ rest, s.rx = .noData :: rest := by simpa [State.atByte] using hat
      rw [micro_noData_listed hk hrx hm]
      refine ⟨0, t, rfl, h.1, ?_⟩
      rw [h.2, hrx]
      rfl

/-- Settles O55: a step with no turns listed is a micro-step, and equal streams have seen equal events. -/
theorem feedingGranularityDoesNotMatter : Obligations.FeedingGranularityDoesNotMatter := by
  intro s s' t hs h hstep
  obtain ⟨n, t', hrun, hsame⟩ := micro_matched hs h ((step_engine_next hs).1 hstep)
  exact ⟨n, t', hrun, hsame, hsame.trace⟩

end Sys2Proof.Machine

/-! # A changed byte leaves a residue (R208) -/

namespace Sys2Proof.Machine

theorem xor_cancel_left (x y z : Byte) : (x ^^^ y) ^^^ (x ^^^ z) = y ^^^ z :=
  calc (x ^^^ y) ^^^ (x ^^^ z) = (x ^^^ x) ^^^ (y ^^^ z) := by ac_rfl
    _ = y ^^^ z := by simp

/-- The XOR of all bytes changes by as much as the one byte does. -/
theorem xorAll_set (l : List Byte) (i : Nat) (h : i < l.length) (b : Byte) :
    xorAll l ^^^ xorAll (l.set i b) = l[i] ^^^ b := by
  induction l generalizing i with
  | nil => exact absurd h (Nat.not_lt_zero i)
  | cons a l ih =>
    cases i with
    | zero =>
      rw [List.set_cons_zero, xorAll, xorAll, BitVec.xor_comm a, BitVec.xor_comm b]
      exact xor_cancel_left _ a b
    | succ i =>
      rw [List.set_cons_succ, xorAll, xorAll, xor_cancel_left]
      exact ih i (Nat.lt_of_succ_lt_succ h)

/-- Settles O38: the XOR of all bytes of a frame is 0; were that of the changed bytes 0 too, the byte would not have
changed. -/
theorem singleByteErrorLeavesResidue : Obligations.SingleByteErrorLeavesResidue := by
  intro seq p i h b hb hzero
  have hdiff := xorAll_set (frameBytes seq p) i h b
  rw [xorAll_frameBytes, hzero] at hdiff
  exact hb (BitVec.xor_eq_zero_iff.1 hdiff.symm).symm

end Sys2Proof.Machine

/-! # No access outside `BUF` (R59, R209)

Each condition that guards an access sends no state to the fault `bufOffset` that satisfies it; the invariants satisfy
those of every operation the engine selects. The Processor's contract is not needed: its breaches are other faults. -/

namespace Sys2Proof.Machine

/-- The outcome is no access outside `BUF`. -/
def InBounds (r : Result) : Prop := r ≠ .fault .bufOffset

section
variable {s : State} {r : Result}

theorem inBounds_next (t : State) : InBounds (.next t) := nofun

theorem inBounds_refused (f : Refusal) : InBounds (.refused f) := nofun

theorem inBounds_ite {p : Prop} [Decidable p] {r' : Result} (h : p → InBounds r) (h' : ¬ p → InBounds r') :
    InBounds (if p then r else r') := by
  split
  · exact h ‹_›
  · exact h' ‹_›

theorem inBounds_ifSelected {c : Bool} (h : InBounds r) : InBounds (ifSelected s c r) :=
  inBounds_ite (fun _ => inBounds_refused _) fun _ => inBounds_ite (fun _ => h) fun _ => inBounds_refused _

theorem inBounds_ifInBuffer {a : Nat} (ha : a < s.capacity) (h : InBounds r) : InBounds (ifInBuffer s a r) :=
  (ifInBuffer_of r ha).symm ▸ h

/-- The Processor is passed a payload that lies in the region; its breaches are other faults (U3). -/
theorem inBounds_callProcessor (h : s.len.toNat ≤ s.maxp) : InBounds (callProcessor s) :=
  inBounds_ite (fun hlong => absurd h hlong.not_ge) fun _ => inBounds_ite (fun _ => nofun) fun _ =>
    inBounds_ite (fun _ => inBounds_next _) fun _ => nofun

/-- `accept_byte` stores inside the payload region (R119, R120) and has room for the error response (R143). -/
theorem inBounds_acceptByte (hcap : 7 < s.capacity) (hlen : s.st = .data ∨ s.st = .waitCksum → s.len.toNat ≤ s.maxp)
    (hcnt : s.st = .data → s.cnt < s.len.toNat) (b : Byte) : InBounds (acceptByte b s) := by
  cases hst : s.st with
  | start =>
    rw [acceptByte_start b hst]
    exact inBounds_ite (fun _ => inBounds_ifSelected (inBounds_next _)) fun _ => inBounds_ifSelected (inBounds_next _)
  | waitSeq =>
    rw [acceptByte_waitSeq b hst]
    exact inBounds_ifSelected (inBounds_next _)
  | waitLenMsb =>
    rw [acceptByte_waitLenMsb b hst]
    exact inBounds_ifSelected (inBounds_next _)
  | waitLenLsb =>
    rw [acceptByte_waitLenLsb b hst]
    exact inBounds_ite (fun _ => inBounds_ifSelected (inBounds_next _)) fun _ => inBounds_ifSelected (inBounds_next _)
  | waitToken =>
    rw [acceptByte_waitToken b hst]
    exact inBounds_ite (fun _ => inBounds_ifSelected (inBounds_next _)) fun _ => inBounds_ifSelected (inBounds_next _)
  | data =>
    have hoffset : Config.head + s.cnt < s.capacity := by
      have hcount := hcnt hst
      have hlength := hlen (.inl hst)
      rw [maxp_eq] at hlength
      show 5 + s.cnt < s.capacity
      omega
    have hstore {c : Bool} {t : State} : InBounds (ifSelected s c (ifInBuffer s (Config.head + s.cnt) (.next t))) :=
      inBounds_ifSelected (inBounds_ifInBuffer hoffset (inBounds_next t))
    rw [acceptByte_data b hst]
    exact inBounds_ite (fun _ => hstore) fun _ => inBounds_ite (fun _ => hstore) fun _ => inBounds_refused _
  | waitCksum =>
    rw [acceptByte_waitCksum b hst]
    exact inBounds_ite
      (fun _ => inBounds_ifSelected (inBounds_callProcessor (hlen (.inr hst))))
      fun _ => inBounds_ifSelected (inBounds_ifInBuffer hcap (inBounds_next _))

/-- A pending frame lies in `BUF` (I2). -/
theorem inBounds_ifPending {f : Nat → Result} (h : s.txc ≠ none → s.txlen ≤ s.capacity) (hf : ∀ k, InBounds (f k)) :
    InBounds (ifPending s f) := by
  cases hk : s.txc with
  | none => simp [ifPending, hk, InBounds]
  | some k =>
    have hcap := h (by simp [hk])
    simp only [ifPending, hk]
    exact inBounds_ite (fun hlt => inBounds_ifInBuffer (by omega) (hf k)) fun _ => inBounds_refused _

end

/-- A transmit micro-step accesses the pending frame alone. -/
theorem inBounds_write {s : State} (h : s.txc ≠ none → s.txlen ≤ s.capacity) (n offered : Nat) :
    InBounds (exec (writeStep n offered) s) := by
  unfold writeStep
  split_ifs
  · exact inBounds_ifPending h fun _ => inBounds_next _
  · exact inBounds_ifPending h fun _ => inBounds_next _
  · exact inBounds_ifPending h fun _ => inBounds_ite (fun _ => inBounds_next _) fun _ => inBounds_refused _

/-- Under the invariants no micro-step accesses `BUF` out of bounds. -/
theorem inBounds_microStep {s : State} (h : Inv s) : InBounds (microStep s) := by
  cases hk : s.txc with
  | some k =>
    rw [microStep, fetchMicro_write hk]
    exact inBounds_write (s := { s with wr := s.wr.tail }) (fun _ => (h.cursor k hk).2.2) _ _
  | none =>
    rw [microStep, fetchMicro_read hk rfl]
    cases s.rxAnswer with
    | noData => exact inBounds_ite (fun _ => inBounds_refused _) fun _ => inBounds_next _
    | byte b =>
      exact inBounds_acceptByte (s := s.took b) (capacityValid_iff.1 h.capacity).1
        (fun hst => (h.length (.inr hst)).2) h.countData b

/-- Settles O46: neither the peer nor the driver accesses `BUF`, and the engine does so within it. -/
theorem noAccessOutsideBuffer : Obligations.NoAccessOutsideBuffer := by
  intro s h
  obtain ⟨hframer, hengine, hpeer, hconstruct, -⟩ := stepRunsFetchedOperation s
  show InBounds (step s)
  cases hs : s.schedule with
  | nil =>
    rw [hengine hs]
    exact inBounds_microStep h
  | cons turn rest =>
    cases turn with
    | framer =>
      rw [hframer rest hs]
      exact inBounds_microStep { h with }
    | peerSends q p =>
      rw [hpeer q p rest hs]
      exact inBounds_ite (fun _ => inBounds_next _) fun _ => inBounds_refused _
    | construct c g =>
      rw [hconstruct c g rest hs]
      exact inBounds_ite (fun _ => inBounds_refused _) fun _ =>
        inBounds_ite (fun _ => inBounds_refused _) fun _ => inBounds_next _

end Sys2Proof.Machine

/-! # Progress and the drain of a response (60_exceptions.md)

Under the invariants and the Processor's contract some micro-step always has an effect, so the engine never stops. Of the
micro-steps only S.TX.DONE takes a response away. -/

namespace Sys2Proof.Machine

/-- Settles O47, from the micro-step that has an effect (`micro_exists`). -/
theorem engineNeverStops : Obligations.EngineNeverStops := by
  intro s hinv hs hcontract
  obtain ⟨t, hm⟩ := micro_exists hinv hcontract
  exact ⟨t, (step_engine_next hs).2 hm⟩

/-- A micro-step that leaves transmit mode is S.TX.DONE: S.TX.STALL and S.TX.PART keep the response pending
(R163 to R165). -/
theorem micro_drains {s t : State} {k : Nat} (hm : Micro s t) (hk : s.txc = some k) (ht : t.txc = none) :
    (fetchMicro s).1 = .sTxDone := by
  cases hm with
  | noData hidle | byte _ _ hidle => exact absurd (hk.symm.trans hidle) nofun
  | stall => exact absurd (hk.symm.trans ht) nofun
  | part => exact absurd ht nofun
  | done j hj _ _ hall => rw [fetchMicro_write hj, hall, writeStep_all]

/-- Settles O51: the engine leaves transmit mode by S.TX.DONE, the driver by a construction; the peer keeps the response
pending. -/
theorem transmitModeLeftOnlyWhenDrained : Obligations.TransmitModeLeftOnlyWhenDrained := by
  intro s t k hk h ht
  cases step_next.1 h with
  | engine _ hs hm =>
    rw [fetch_engine hs]
    exact .inl (micro_drains hm hk ht)
  | turn rest _ hs hm =>
    have hfetch : fetch s = fetchMicro { s with schedule := rest } := by simp [fetch, hs]
    rw [hfetch]
    exact .inl (micro_drains hm hk ht)
  | request => exact absurd (hk.symm.trans ht) nofun
  | construct c g rest hs => exact .inr ⟨c, g, by simp [fetch, hs]⟩

end Sys2Proof.Machine

/-! # Construction (70_reset_and_hazards.md)

When RESET completes and what it leaves is `execReset_next`; added here are what binding the agents leaves unchanged
and when the capacity is what RESET refuses. -/

namespace Sys2Proof.Machine

/-! ## What binding the agents leaves unchanged -/

@[simp] theorem bind_trace (s : State) (g : Option Binding) : (s.bind g).trace = s.trace := by
  cases g <;> rfl

@[simp] theorem bind_schedule (s : State) (g : Option Binding) : (s.bind g).schedule = s.schedule := by
  cases g <;> rfl

@[simp] theorem bind_serving (s : State) (g : Option Binding) : (s.bind g).serving = s.serving := by
  cases g <;> rfl

/-! ## RESET -/

/-- The capacity is checked before all else, so an invalid one is the refusal in every state (R251). -/
theorem execReset_invalidCapacity {c : Nat} {g : Option Binding} {s : State} :
    exec (.reset c g) s = .refused .invalidCapacity ↔ capacityValid c = false := by
  simp only [exec, execReset]
  cases capacityValid c <;> cases s.serving <;> simp

/-- Settles O30: RESET completes with `construct` after `bind`; the first fixes the registers and gives a fresh
buffer, the second fixes the agents, and neither writes the trace, the schedule or `serving`. -/
theorem constructionGivesIdleInstance : Obligations.ConstructionGivesIdleInstance := by
  intro s c g hmin hmax hserving
  have hnext : exec (.reset c g) s = .next ((s.bind g).construct c) :=
    execReset_next.2 ⟨capacityValid_iff.2 ⟨hmin, hmax⟩, hserving, rfl⟩
  refine ⟨_, hnext, rfl, maxp_eq _, rfl, rfl, bind_trace s g, bind_schedule s g, (bind_serving s g).trans hserving,
    ?kept, ?bound, wf_unspecified _ c, fun _ => mem_unspecified⟩
  case kept =>
    rintro rfl
    exact ⟨rfl, rfl, rfl, rfl, rfl, rfl⟩
  case bound =>
    rintro b rfl
    exact ⟨rfl, rfl, rfl, rfl, rfl, rfl⟩

/-- Settles O31: outside the bounds of R7 the capacity is not valid, and RESET looks at nothing else first. -/
theorem invalidCapacityRefused : Obligations.InvalidCapacityRefused := by
  intro s c g hout
  refine execReset_invalidCapacity.2 (Bool.eq_false_iff.2 fun hvalid => ?_)
  have hbounds := capacityValid_iff.1 hvalid
  omega

/-- Settles O32: a RESET that completes was not inside a service call (`execReset_next`). -/
theorem noConstructionDuringService : Obligations.NoConstructionDuringService := by
  intro s c g t hserving hnext
  obtain ⟨-, hidle, -⟩ := execReset_next.1 hnext
  exact absurd (hserving.symm.trans hidle) nofun

end Sys2Proof.Machine
